-- ==== Sys2Proof/Word.lean ====
section
/-! DEFINITION. The widths of B58X's values (spec/00_scope.md rule R8, spec/20_memory.md rules R60 and R67):
32-bit registers and bus words, 16-bit register fields, 8-bit digit entries, 64-bit NVAL, and byte offsets into
the 16 KiB window. -/

namespace Sys2Proof

/-- A 32-bit register, bus word or command word (R67, R80). -/
abbrev Word := BitVec 32

/-- One digit entry of IBUF or OBUF (R41, R42). -/
abbrev Byte := BitVec 8

/-- The defined field of ILEN, OLEN, ZRUN and ERRIDX, bits 15:0 (R36, R37, R38, R40). -/
abbrev Half := BitVec 16

/-- The 64-bit unsigned NVAL (R39, INT_W of R6). -/
abbrev Double := BitVec 64

/-- A byte offset from BASE within the block's one address space, the 16 KiB window (R60). -/
abbrev Offset := BitVec 14

end Sys2Proof
end

