-- ==== Sys2Proof/Syntax.lean ====
section
/-! DEFINITION. The commands of B58X: one constructor per row of spec/opcode_table.json (spec/30_encoding.md rules R82
and R83). -/

namespace Sys2Proof

/-- The three radices of R7, in the order of their codes (R84). -/
inductive Radix where
  | ten
  | fiftyEight
  | twoFiftySix
  deriving DecidableEq, Repr

/-- The radix itself (R84: `radix(0) = 10`, `radix(1) = 58`, `radix(2) = 256`). -/
def Radix.base : Radix → Nat
  | .ten => 10
  | .fiftyEight => 58
  | .twoFiftySix => 256

/-- What a 32-bit command word decodes to (R83). Commands have no immediates (R86): every operand is implicit. -/
inductive Instr where
  /-- CONV (R104): source radix, target radix, zero-run bit Z. -/
  | conv (sr tr : Radix) (z : Bool)
  /-- ENCI (R130). -/
  | enci
  /-- DECI (R131). -/
  | deci
  /-- ILLEGAL (R162): an accepted word that is none of the 13 legal ones, kept whole. -/
  | illegal (w : Word)
  deriving DecidableEq, Repr

end Sys2Proof
end

