-- ==== Sys2Proof/WellFormed.lean ====
section
/-! DEFINITION. The commands some 32-bit word stands for: R85's restriction of the zero-run bit, and, for ILLEGAL, the
words R87 does not list. -/

namespace Sys2Proof

/-- R85: Z = 1 is legal only for 256 to 58 and 58 to 256. -/
def zeroRunLegal (sr tr : Radix) (z : Bool) : Bool :=
  !z || (sr == .twoFiftySix && tr == .fiftyEight) || (sr == .fiftyEight && tr == .twoFiftySix)

/-- The 13 legal command words, in the order of R87's table. -/
def legalWords : List Word :=
  [0x00000001, 0x00000011, 0x00000021, 0x00000041, 0x00000051, 0x00000061, 0x00000081,
   0x00000091, 0x000000A1, 0x00000161, 0x00000191, 0x00000002, 0x00000003]

/-- A command that some word encodes. -/
def wellFormed : Instr → Bool
  | .conv sr tr z => zeroRunLegal sr tr z
  | .enci => true
  | .deci => true
  | .illegal w => !legalWords.contains w

end Sys2Proof
end

