-- ==== Sys2Proof/Decode.lean ====
section
/-! DEFINITION. The command decoder of spec/30_encoding.md rule R83, total on 32-bit words, the names of the reasons a
word is ILLEGAL (R88), and the encoder written from the pattern of R81. -/

namespace Sys2Proof

/-- OP, bits 3:0 (R81). -/
def opField (w : Word) : BitVec 4 := w.extractLsb' 0 4

/-- SR, bits 5:4 (R81). -/
def srField (w : Word) : BitVec 2 := w.extractLsb' 4 2

/-- TR, bits 7:6 (R81). -/
def trField (w : Word) : BitVec 2 := w.extractLsb' 6 2

/-- Z, bit 8 (R81). -/
def zField (w : Word) : Bool := w.getLsbD 8

/-- RSV, bits 31:9 (R81). -/
def rsvField (w : Word) : BitVec 23 := w.extractLsb' 9 23

/-- Bits 31:4, which ENCI and DECI require to be zero (R82). -/
def aboveOpField (w : Word) : BitVec 28 := w.extractLsb' 4 28

/-- `radix(code)` of R84; code 3 is reserved. -/
def radixOfCode (c : BitVec 2) : Option Radix :=
  if c = 0 then some .ten
  else if c = 1 then some .fiftyEight
  else if c = 2 then some .twoFiftySix
  else none

/-- The code of a radix (R84). -/
def codeOfRadix : Radix → BitVec 2
  | .ten => 0
  | .fiftyEight => 1
  | .twoFiftySix => 2

/-- Why a word is ILLEGAL: R88's list, by name. -/
inductive IllegalReason where
  /-- OP is 0 or 4 to 15. -/
  | badOpcode
  /-- A CONV word with a non-zero RSV, or an ENCI or DECI word with a bit of 31:4 set. -/
  | reservedBits
  /-- A CONV word with radix code 3. -/
  | reservedRadix
  /-- A CONV word with Z = 1 on a pair R85 does not allow. -/
  | zeroRunPair
  deriving DecidableEq, Repr

/-- The CONV branch of R83's decode function, its checks in R83's order. -/
def decodeConv (w : Word) : Except IllegalReason Instr :=
  if rsvField w ≠ 0 then .error .reservedBits
  else
    match radixOfCode (srField w), radixOfCode (trField w) with
    | some sr, some tr =>
      if zeroRunLegal sr tr (zField w) then .ok (.conv sr tr (zField w)) else .error .zeroRunPair
    | _, _ => .error .reservedRadix

/-- R83's decode function, naming the reason where the word is ILLEGAL. -/
def decodeLegal (w : Word) : Except IllegalReason Instr :=
  if opField w = 0x1 then decodeConv w
  else if opField w = 0x2 then
    if aboveOpField w ≠ 0 then .error .reservedBits else .ok .enci
  else if opField w = 0x3 then
    if aboveOpField w ≠ 0 then .error .reservedBits else .ok .deci
  else .error .badOpcode

/-- R83: every 32-bit word decodes to CONV, ENCI, DECI or ILLEGAL. -/
def decode (w : Word) : Instr :=
  match decodeLegal w with
  | .ok i => i
  | .error _ => .illegal w

/-- The command word of an instruction, laid out as R81's pattern `R…RZTTSSOOOO`. -/
def encode : Instr → Word
  | .conv sr tr z =>
    (0 : BitVec 23) ++ BitVec.ofBool z ++ codeOfRadix tr ++ codeOfRadix sr ++ (0x1 : BitVec 4)
  | .enci => (0 : BitVec 28) ++ (0x2 : BitVec 4)
  | .deci => (0 : BitVec 28) ++ (0x3 : BitVec 4)
  | .illegal w => w

/-- The 32-bit command word whose low `nbits` bits are those of `w` and whose other bits are 0. A command is one 32-bit
word, complete in one write (R80), so its bits are numbered as the opcode table numbers them. -/
def tableWord (nbits w : Nat) : Word := BitVec.ofNat 32 (w % 2 ^ nbits)

/-- What the decoder reads from an opcode-table word of `nbits` bits. Longer than 32 bits there is no command (R89). DESIGN
CHOICE (assumption log 16). -/
def decodeTableWord (nbits w : Nat) : Option Instr :=
  if nbits ≤ 32 then some (decode (tableWord nbits w)) else none

end Sys2Proof
end

