-- ==== Sys2Proof/Config.lean ====
section
/-! DEFINITION. The implementation parameters of spec/00_scope.md rule R6, with their constraints, and the free
values the spec leaves open (spec/93_implementation_defined.md U1, U2, U3, U5, U6). A free value is an opaque
constant: no proof can see which value it is. -/

namespace Sys2Proof

/-- HOST_ORDERING (R6, R71): what the interconnect in front of the block does with the host's program order. Either
way the block sees one stream of accesses, in the order they reach it (R70). -/
inductive HostOrdering where
  /-- The interconnect keeps the program order. -/
  | inOrder
  /-- The interconnect may reorder, and the host fences. -/
  | hostFences
  deriving DecidableEq, Repr

/-- The parameters of R6. Fixed for a machine: no step changes them. LATENCY is the free value `Config.latencyOf`, and
INT_W is fixed at 64 (`Double`). -/
structure Config where
  /-- IBUF_DEPTH, the number of entries of IBUF. -/
  ibufDepth : Nat
  /-- OBUF_DEPTH, the number of entries of OBUF. -/
  obufDepth : Nat
  /-- ACC_BITS, the capacity of the hidden accumulator (R50). -/
  accBits : Nat
  /-- BASE, the host bus address of the window (R60). -/
  base : Nat
  /-- IRQ_LINE, the platform interrupt input that `irq` drives (R44, R172). -/
  irqLine : Nat
  /-- HOST_ORDERING. No rule of the block depends on it (U9; assumption log 9). -/
  hostOrdering : HostOrdering
  /-- ACCESS_POLICY, the platform's number for the policy that says which software may reach the window. No rule of the
  block depends on it: every access that reaches the window has the same rights (R174, U10; assumption log 9). -/
  accessPolicy : Nat
  deriving DecidableEq, Repr

/-- R6's constraints: the depths are multiples of 4 within their ranges, ACC_BITS holds every magnitude, and BASE is
16 KiB aligned. -/
def Config.legal (c : Config) : Bool :=
  c.ibufDepth % 4 == 0 && decide (8 ≤ c.ibufDepth) && decide (c.ibufDepth ≤ 4096)
    && c.obufDepth % 4 == 0 && decide (16 ≤ c.obufDepth) && decide (c.obufDepth ≤ 4096)
    && decide (8 * c.ibufDepth ≤ c.accBits) && decide (64 ≤ c.accBits)
    && c.base % 16384 == 0

/-- The spec's parameter values (R6: 256 and 1024). ACC_BITS is the least legal value; BASE, IRQ_LINE,
HOST_ORDERING and ACCESS_POLICY are OPEN in the spec. DESIGN CHOICE (assumption log 2): 0, or `inOrder`, in the reset
state; statements quantify over every value. -/
def Config.ofSpec : Config where
  ibufDepth := 256
  obufDepth := 1024
  accBits := 2048
  base := 0
  irqLine := 0
  hostOrdering := .inOrder
  accessPolicy := 0

/-- Free value (U1): what entry `i` of IBUF holds after hard reset number `k`, until the host writes it. -/
opaque Config.ibufPowerOn (k i : Nat) : Byte

/-- Free value (U1, U2): what entry `i` of OBUF holds after hard reset number `k`, until a command writes it. -/
opaque Config.obufPowerOn (k i : Nat) : Byte

/-- Free value (U3): the contents the accumulator ACC is left with the `k`-th time they become unspecified (R50). -/
opaque Config.accContents (k : Nat) : Nat

/-- Free value (U5, U6): the `k`-th LATENCY draw, a finite number of host steps between accept and completion. -/
opaque Config.latencyOf (k : Nat) : Nat

end Sys2Proof
end

