-- ==== Sys2Proof/Machine/State.lean ====
section
/-! DEFINITION. The state of B58X (spec/10_state.md rules R20 to R53), plain data, and the state after hard reset (R45,
R190). Beside the block's own state it holds what one deterministic step function needs of the block's two agents
(R13): the accesses the host has still to make, the response to the last one, and the LATENCY draws. -/

namespace Sys2Proof.Machine

/-- A digit buffer (R41, R42) as (entry index, digit) cells. An entry that nothing has written since hard reset is not
listed; it reads as a free value (assumption log 1). -/
abbrev Memory := List Host.Cell

/-- The canonical form: entry indices strictly rising. An unlisted entry holds no value of the model's, so no listed
cell can equal one. -/
abbrev Memory.wf (m : Memory) : Prop := m.Pairwise fun a b => a.1 < b.1

/-- The error codes of R161 that a completion can report (U15: 6 to 15 are never produced). -/
inductive ErrorCode where
  /-- 0, NONE. -/
  | noError
  /-- 1, ILLEGAL_CMD (R162). -/
  | illegalCmd
  /-- 2, LEN_RANGE (R164). -/
  | lenRange
  /-- 3, DIGIT_RANGE (R163). -/
  | digitRange
  /-- 4, OUT_OVERFLOW (R165). -/
  | outOverflow
  /-- 5, INT_OVERFLOW (R166). -/
  | intOverflow
  deriving DecidableEq, Repr

/-- LCMD (R51): the latched command word with the snapshot of the operands a command reads. -/
structure Latched where
  word : Word
  ilen : Half
  ibuf : Memory
  nval : Double
  deriving DecidableEq, Repr

/-- The width of a host bus access. The block accepts 32 bits only (R65). -/
inductive AccessWidth where
  | bits8
  | bits16
  | bits32
  | bits64
  | burst
  deriving DecidableEq, Repr

/-- A host bus access is a read or the write of a value (R140). -/
inductive AccessKind where
  | read
  | write (v : Word)
  deriving DecidableEq, Repr

/-- One host bus access to the window, at an offset from BASE (R140, R150). -/
structure Access where
  off : Offset
  width : AccessWidth
  kind : AccessKind
  deriving DecidableEq, Repr

/-- What the outside world does to the block: a bus access (R140), R90's POLL loop, or the platform's reset input
(R190). -/
inductive Input where
  /-- One bus access of the host. -/
  | access (a : Access)
  /-- `POLL off, mask, val`: the host reads `off` until `(t AND mask) = val` (R90). -/
  | poll (off : Offset) (mask val : Word)
  /-- The reset input (R190). -/
  | hardReset
  deriving DecidableEq, Repr

/-- What the bus answers to the host's last access (R141, R152). -/
inductive BusResponse where
  /-- No access since hard reset. -/
  | idle
  /-- A read's value. -/
  | data (v : Word)
  /-- A write was taken, ignored or dropped: the bus reports no error for any of these (R152). -/
  | written
  /-- The access was not an aligned 32-bit one (R152). -/
  | busError
  deriving DecidableEq, Repr

/-- The whole machine. -/
structure State where
  /-- The parameters of R6; no step changes them. -/
  cfg : Config
  /-- CTRL.IE (R26). -/
  ie : Bool
  /-- STATUS.DONE (R30). -/
  done : Bool
  /-- STATUS.ERR (R31). -/
  err : Bool
  /-- STATUS.OVR (R32). -/
  ovr : Bool
  /-- STATUS.ECODE (R33). -/
  ecode : ErrorCode
  /-- CMD (R35). -/
  cmd : Word
  /-- ILEN bits 15:0 (R36). -/
  ilen : Half
  /-- OLEN bits 15:0 (R37). -/
  olen : Half
  /-- ZRUN bits 15:0 (R38). -/
  zrun : Half
  /-- NVAL_LO (R39). -/
  nvalLo : Word
  /-- NVAL_HI (R39). -/
  nvalHi : Word
  /-- ERRIDX bits 15:0 (R40). -/
  errIdx : Half
  /-- IBUF (R41). -/
  ibuf : Memory
  /-- OBUF (R42). -/
  obuf : Memory
  /-- LCMD (R51): present exactly while the engine phase is RUN (R45: none when IDLE). -/
  lcmd : Option Latched
  /-- ACC (R50), by the number of times its contents have become unspecified: `State.acc` is a free value of it. -/
  accDraw : Nat
  /-- The model's own: hard resets seen since `State.reset`, each of which redraws the buffers (U1). -/
  hardResets : Nat
  /-- The model's own: how many more host steps come before the running command's completion (U5). -/
  latency : Nat
  /-- The model's own: LATENCY draws fixed in advance for the accepts to come, the next one first. -/
  latencies : List Nat
  /-- The model's own: draws taken so far from `Config.latencyOf`, where `latencies` names none. -/
  latencyDraws : Nat
  /-- The model's own: what the outside world does next, oldest first (R70: one stream, in order). -/
  inputs : List Input
  /-- The model's own: the response to the host's last access. -/
  resp : BusResponse
  deriving DecidableEq, Repr

/-- Why the machine stops. -/
inductive Fault where
  /-- Raised by `step` alone: the state's parameters break a constraint of R6, so it is no state of a B58X. Safe: no
  legal block is in such a state (DESIGN CHOICE, assumption log 11). -/
  | illegalParameters
  deriving DecidableEq, Repr

/-- Why an instruction has no meaning. No arm of `exec` refuses. -/
inductive Refusal where
  /-- Raised by an arm of `exec` that is not modelled yet. Safe: the machine stops. -/
  | notModelled (mnemonic : String)
  deriving DecidableEq, Repr

/-- The block right after hard reset (R45, R190): every register, flag and hidden field zero, the engine IDLE, no
buffer entry listed. The fields that are the model's own are DESIGN CHOICEs (assumption log 4). -/
def State.reset : State where
  cfg := Config.ofSpec
  ie := false
  done := false
  err := false
  ovr := false
  ecode := .noError
  cmd := 0
  ilen := 0
  olen := 0
  zrun := 0
  nvalLo := 0
  nvalHi := 0
  errIdx := 0
  ibuf := []
  obuf := []
  lcmd := none
  accDraw := 0
  hardResets := 0
  latency := 0
  latencies := []
  latencyDraws := 0
  inputs := []
  resp := .idle

end Sys2Proof.Machine
end

