-- ==== Sys2Proof/Machine/Ops.lean ====
section
/-! DEFINITION. The shared operations: the number functions (spec/40_base_conversion.md rules R100 to R103), digit
buffer reads and writes, command accept (R142), successful and failed completion (R145, R160), the acknowledge (R146,
R171), and the two resets (R190, R191). -/

namespace Sys2Proof.Machine

/-! ### Number functions -/

/-- `value_R(d)` of R100: the accumulator over the digits, left to right. -/
def value (R : Nat) (d : List Nat) : Nat := d.foldl (fun acc x => acc * R + x) 0

/-- The loop of R101 with the digits found so far; `fuel` bounds its rounds. -/
def digitsFrom (R : Nat) : Nat → Nat → List Nat → List Nat
  | 0, _, out => out
  | fuel + 1, acc, out => if acc = 0 then out else digitsFrom R fuel (acc / R) (acc % R :: out)

/-- `digits_R(N)` of R101. A radix of at least 2 takes at most `N.log2 + 1` rounds. -/
def digits (R N : Nat) : List Nat := digitsFrom R (N.log2 + 1) N []

/-- `lz(d)` of R103: the length of the leading zero run. -/
def lz (d : List Nat) : Nat := (d.takeWhile (· == 0)).length

/-! ### Digit buffers -/

/-- The listed digit of entry `i`, if something has written it since hard reset. -/
def Memory.stored : Memory → Nat → Option Byte
  | [], _ => none
  | (j, b) :: m, i => if i = j then some b else Memory.stored m i

/-- Entry `i`, where an unlisted entry reads as the free value `free i` (R190, U1). -/
def Memory.read (free : Nat → Byte) (m : Memory) (i : Nat) : Byte := (Memory.stored m i).getD (free i)

/-- Entry `i` set to `b`, keeping the canonical form. -/
def Memory.write : Memory → Nat → Byte → Memory
  | [], i, b => [(i, b)]
  | (j, c) :: m, i, b =>
    if i < j then (i, b) :: (j, c) :: m
    else if i = j then (i, b) :: m
    else (j, c) :: Memory.write m i b

/-- Entries `i`, `i+1`, ... set to the bytes of a list. -/
def Memory.writeList : Memory → Nat → List Byte → Memory
  | m, _, [] => m
  | m, i, b :: bs => Memory.writeList (Memory.write m i b) (i + 1) bs

/-- IBUF[i] (R41). -/
def State.ibufEntry (s : State) (i : Nat) : Byte := Memory.read (Config.ibufPowerOn s.hardResets) s.ibuf i

/-- OBUF[i] (R42). -/
def State.obufEntry (s : State) (i : Nat) : Byte := Memory.read (Config.obufPowerOn s.hardResets) s.obuf i

/-- `OBUF[0..m) <- out` (R104): the digits of `out` from entry 0 on, every other entry unchanged. -/
def storeDigits (out : List Nat) (s : State) : State :=
  { s with obuf := Memory.writeList s.obuf 0 (out.map (BitVec.ofNat 8)) }

/-! ### Hidden state -/

/-- NVAL = {NVAL_HI, NVAL_LO} (R39). -/
def State.nval (s : State) : Double := s.nvalHi ++ s.nvalLo

/-- The contents of ACC, an ACC_BITS-bit value that is unspecified between commands (R50, U3).
DESIGN CHOICE (assumption log 10). -/
def State.acc (s : State) : Nat := Config.accContents s.accDraw % 2 ^ s.cfg.accBits

/-! ### Accept -/

/-- The latency of the next command: the first draw the state names, else the next free draw (U5). DESIGN CHOICE
(assumption log 5). -/
def drawLatency (s : State) : State :=
  match s.latencies with
  | k :: ks => { s with latency := k, latencies := ks }
  | [] => { s with latency := Config.latencyOf s.latencyDraws, latencyDraws := s.latencyDraws + 1 }

/-- The register and latch effects of R142's accept: CMD and LCMD with the operand snapshot, DONE cleared, the engine in
RUN, ACC in use (its contents are not visible, R50). The completion is due at once. -/
def latchCommand (w : Word) (s : State) : State :=
  { s with
    cmd := w
    lcmd := some { word := w, ilen := s.ilen, ibuf := s.ibuf, nval := s.nval }
    done := false
    latency := 0
    accDraw := s.accDraw + 1 }

/-- Command accept (R142), with the LATENCY draw of the command. -/
def accept (w : Word) (s : State) : State := drawLatency (latchCommand w s)

/-! ### Completion -/

/-- Why a command's body raises: the error code, and the index for DIGIT_RANGE (R10's `raise <Error>(info)`). -/
structure CmdError where
  code : ErrorCode
  idx : Nat
  deriving DecidableEq, Repr

/-- What every completion does (R145): DONE set, the engine IDLE. ACC is left with contents that are unspecified (R50). -/
def endCommand (s : State) : State :=
  { s with done := true, lcmd := none, latency := 0, accDraw := s.accDraw + 1 }

/-- The end of a successful completion (R145): ERRIDX and ECODE zero. ERR keeps its value (R31). -/
def completeOk (s : State) : State :=
  { endCommand s with errIdx := 0, ecode := .noError }

/-- TAKING AN ERROR (R145, R160, R170): ECODE, ERR, DONE and ERRIDX record it, the engine goes IDLE, nothing else the
command would have written is written. ERRIDX is the index for DIGIT_RANGE and 0 for every other code. -/
def raiseError (e : CmdError) (s : State) : State :=
  { endCommand s with
    errIdx := if e.code = .digitRange then BitVec.ofNat 16 e.idx else 0
    ecode := e.code
    err := true }

/-- The completion of a command whose body, from `s`, gave its result writes applied or an error (R145). -/
def finish (body : Except CmdError State) (s : State) : State :=
  match body with
  | .ok t => completeOk t
  | .error e => raiseError e s

/-- THE RETURN from an error or completion (R171): the host's write of `v` to STATUS, which clears DONE, ERR and OVR
where `v` has a 1 (R146). -/
def acknowledge (v : Word) (s : State) : State :=
  { s with
    done := s.done && !v.getLsbD 1
    err := s.err && !v.getLsbD 2
    ovr := s.ovr && !v.getLsbD 3 }

/-! ### Resets -/

/-- The registers and flags that both resets zero (R45), the engine IDLE, ACC unspecified. -/
def clearRegisters (s : State) : State :=
  { s with
    done := false, err := false, ovr := false, ecode := .noError
    cmd := 0, ilen := 0, olen := 0, zrun := 0, nvalLo := 0, nvalHi := 0, errIdx := 0
    lcmd := none, latency := 0, accDraw := s.accDraw + 1 }

/-- Soft reset (R191). IBUF and OBUF stay; IE is the CTRL write's to store (R147). -/
def softReset (s : State) : State := clearRegisters s

/-- Hard reset (R190): as soft reset, with IE zero too and every buffer entry drawn anew (U1).
What the outside world still has to do stays. DESIGN CHOICE (assumption log 13). -/
def hardReset (s : State) : State :=
  { clearRegisters s with
    ie := false, ibuf := [], obuf := [], hardResets := s.hardResets + 1, resp := .idle }

end Sys2Proof.Machine
end

