-- ==== Sys2Proof/Machine/Operands.lean ====
section
/-! DEFINITION. Where operands come from and where results go: the implicit operands of the commands
(spec/30_encoding.md rule R86, read from the accept-time snapshot of spec/10_state.md rule R51), the digit packing of
spec/20_memory.md rule R66, and the decoding of window offsets (R61). -/

namespace Sys2Proof.Machine

/-! ### Command operands -/

/-- ILEN as the command reads it: as it was at accept (R51, R73). Outside a command, the register. DESIGN CHOICE
(assumption log 8). -/
def operandLen (s : State) : Nat :=
  match s.lcmd with
  | some c => c.ilen.toNat
  | none => s.ilen.toNat

/-- IBUF[i] as the command reads it (R51, R73). -/
def operandEntry (s : State) (i : Nat) : Byte :=
  match s.lcmd with
  | some c => Memory.read (Config.ibufPowerOn s.hardResets) c.ibuf i
  | none => s.ibufEntry i

/-- The command's input sequence IBUF[0..ILEN), digit 0 the most significant (R36, R41). -/
def operandDigits (s : State) : List Nat := (List.range (operandLen s)).map fun i => (operandEntry s i).toNat

/-- NVAL as the command reads it (R51, R73). -/
def operandInt (s : State) : Nat :=
  match s.lcmd with
  | some c => c.nval.toNat
  | none => s.nval.toNat

/-- The smallest index whose digit is not below the radix (R163). -/
def firstOutOfRange (R : Nat) (d : List Nat) : Option Nat := d.findIdx? fun x => decide (R ≤ x)

/-- The input checks of CONV and DECI in R169's order: LEN_RANGE before any digit is read (R164), then DIGIT_RANGE at
the smallest offending index (R163); else the digits. -/
def inputDigits (R : Nat) (s : State) : Except CmdError (List Nat) :=
  if s.cfg.ibufDepth < operandLen s then .error { code := .lenRange, idx := 0 }
  else
    match firstOutOfRange R (operandDigits s) with
    | some i => .error { code := .digitRange, idx := i }
    | none => .ok (operandDigits s)

/-- The result writes of CONV and ENCI (R104, R130): OBUF[0..m), OLEN = m and ZRUN = k. -/
def storeOutput (out : List Nat) (k : Nat) (s : State) : State :=
  { storeDigits out s with olen := BitVec.ofNat 16 out.length, zrun := BitVec.ofNat 16 k }

/-- The output side of CONV and ENCI: OUT_OVERFLOW (R165), else the result writes. -/
def commitDigits (out : List Nat) (k : Nat) (s : State) : Except CmdError State :=
  if s.cfg.obufDepth < out.length then .error { code := .outOverflow, idx := 0 }
  else .ok (storeOutput out k s)

/-! ### Packing -/

/-- Bits 8j+7 to 8j of a word (R66). -/
def byteOfWord (v : Word) (j : Nat) : Byte := v.extractLsb' (8 * j) 8

/-- The word that holds entries 4w to 4w+3, entry 4w in bits 7:0 (R66). -/
def packEntries (entry : Nat → Byte) (w : Nat) : Word :=
  entry (4 * w + 3) ++ entry (4 * w + 2) ++ entry (4 * w + 1) ++ entry (4 * w)

/-! ### Window offsets -/

/-- The registers of R22. -/
inductive Reg where
  | id
  | param
  | ctrl
  | status
  | cmd
  | ilen
  | olen
  | zrun
  | nvalLo
  | nvalHi
  | errIdx
  deriving DecidableEq, Repr

/-- R22's register at a word-aligned offset. -/
def regAt (off : Nat) : Option Reg :=
  match off with
  | 0x000 => some .id
  | 0x004 => some .param
  | 0x008 => some .ctrl
  | 0x00C => some .status
  | 0x010 => some .cmd
  | 0x014 => some .ilen
  | 0x018 => some .olen
  | 0x01C => some .zrun
  | 0x020 => some .nvalLo
  | 0x024 => some .nvalHi
  | 0x028 => some .errIdx
  | _ => none

/-- What an aligned offset of the window addresses (R61). -/
inductive Target where
  | reg (r : Reg)
  | ibufWord (w : Nat)
  | obufWord (w : Nat)
  | reserved
  deriving DecidableEq, Repr

/-- The address map of R61 with the state's depths. -/
def target (c : Config) (off : Offset) : Target :=
  let o := off.toNat
  if o < 0x1000 then
    match regAt o with
    | some r => .reg r
    | none => .reserved
  else if o < 0x1000 + c.ibufDepth then .ibufWord ((o - 0x1000) / 4)
  else if o < 0x2000 then .reserved
  else if o < 0x2000 + c.obufDepth then .obufWord ((o - 0x2000) / 4)
  else .reserved

/-- The effective address BASE + off (R150). -/
def busAddress (c : Config) (off : Offset) : Nat := c.base + off.toNat

/-- The offset a host bus address has in the window, if it lies in BASE + 0x0000 to BASE + 0x3FFF (R60). DEDUCED
(assumption log 14). -/
def offsetOf (c : Config) (addr : Nat) : Option Offset :=
  if c.base ≤ addr ∧ addr < c.base + 0x4000 then some (BitVec.ofNat 14 (addr - c.base)) else none

end Sys2Proof.Machine
end

