-- ==== Sys2Proof/Machine/Flags.lean ====
section
/-! DEFINITION. The four STATUS flags, the status word (spec/10_state.md rules R29 to R34, R43) and the interrupt
output (R44). -/

namespace Sys2Proof.Machine

/-- The engine phase (R52). -/
inductive Phase where
  | idle
  | run
  deriving DecidableEq, Repr

/-- The engine phase: RUN exactly while a command is latched (R45, R51, R52). DEDUCED (assumption log 3). -/
def State.phase (s : State) : Phase := if s.lcmd.isSome then .run else .idle

/-- STATUS.BUSY is 1 exactly while the engine phase is RUN (R29). -/
def State.busy (s : State) : Bool := s.phase == .run

/-- The number of an error code (R161). -/
def ErrorCode.number : ErrorCode → BitVec 4
  | .noError => 0
  | .illegalCmd => 1
  | .lenRange => 2
  | .digitRange => 3
  | .outOverflow => 4
  | .intOverflow => 5

/-- A read of STATUS: `{20'b0, ECODE[3:0], 4'b0, OVR, ERR, DONE, BUSY}` (R34). -/
def State.statusWord (s : State) : Word :=
  (0 : BitVec 20) ++ s.ecode.number ++ (0 : BitVec 4) ++ BitVec.ofBool s.ovr ++ BitVec.ofBool s.err
    ++ BitVec.ofBool s.done ++ BitVec.ofBool s.busy

/-- A read of CTRL: `{30'b0, 1'b0, IE}` (R28). -/
def State.ctrlWord (s : State) : Word := (0 : BitVec 31) ++ BitVec.ofBool s.ie

/-- The interrupt output: `irq = CTRL.IE AND STATUS.DONE` (R44). -/
def State.irq (s : State) : Bool := s.ie && s.done

/-- The level the block drives on a platform interrupt input: `irq` on IRQ_LINE, nothing on any other (R172, U8).
DEDUCED (assumption log 18). -/
def State.irqOn (s : State) (line : Nat) : Bool := decide (line = s.cfg.irqLine) && s.irq

/-- The overrun flag, set when a write is dropped because BUSY = 1 (R32, R143, R144, R167). -/
def setOverrun (s : State) : State := { s with ovr := true }

end Sys2Proof.Machine
end

