-- ==== Sys2Proof/Machine/Convert.lean ====
section
/-! DEFINITION. CONV: the base converter with the zero-run detector and restorer (spec/40_base_conversion.md rule R104,
spec/41_zero_run.md rules R120 to R126). -/

namespace Sys2Proof.Machine

/-- The output sequence of CONV: with Z = 1 the leading zero run is stripped and restored (R121, R122), with Z = 0 it is
dropped (R126). -/
def convOutput (R1 R2 : Nat) (z : Bool) (d : List Nat) : List Nat :=
  if z then List.replicate (lz d) 0 ++ digits R2 (value R1 (d.drop (lz d)))
  else digits R2 (value R1 d)

/-- The body of CONV (R104): the result writes applied, or the error. -/
def convBody (sr tr : Radix) (z : Bool) (s : State) : Except CmdError State :=
  match inputDigits sr.base s with
  | .error e => .error e
  | .ok d => commitDigits (convOutput sr.base tr.base z d) (lz d) s

/-- The completion step of CONV (R104, R145). A term no word encodes gets the same body; no decoding reaches it (DESIGN
CHOICE, assumption log 17). -/
def execConv (sr tr : Radix) (z : Bool) (s : State) : Host.Outcome State Fault Refusal :=
  .next (finish (convBody sr tr z s) s)

end Sys2Proof.Machine
end

