-- ==== Sys2Proof/Machine/Illegal.lean ====
section
/-! DEFINITION. ILLEGAL: the completion of an accepted word that is no legal command (spec/60_exceptions.md rule R162). -/

namespace Sys2Proof.Machine

/-- The body of ILLEGAL: `raise ILLEGAL_CMD(0)` with no other effect (R162). CMD keeps the word (R35). -/
def illegalBody : Except CmdError State := .error { code := .illegalCmd, idx := 0 }

/-- The completion step of an illegal word (R145, R162): it takes the error ILLEGAL_CMD, whatever the word. -/
def execIllegal (_w : Word) (s : State) : Host.Outcome State Fault Refusal := .next (finish illegalBody s)

end Sys2Proof.Machine
end

