-- ==== Sys2Proof/Machine/Integer.lean ====
section
/-! DEFINITION. ENCI and DECI: the integer commands (spec/42_integer.md rules R130 to R132). -/

namespace Sys2Proof.Machine

/-- The body of ENCI (R130): the base-58 digits of NVAL to OBUF, with no zero-run handling. -/
def enciBody (s : State) : Except CmdError State := commitDigits (digits 58 (operandInt s)) 0 s

/-- The completion step of ENCI (R130, R145). -/
def execEnci (s : State) : Host.Outcome State Fault Refusal := .next (finish (enciBody s) s)

/-- The result writes of DECI (R131): NVAL_LO <- N[31:0], NVAL_HI <- N[63:32], ZRUN = k. -/
def storeInteger (N k : Nat) (s : State) : State :=
  { s with nvalLo := BitVec.ofNat 32 N, nvalHi := BitVec.ofNat 32 (N / 2 ^ 32), zrun := BitVec.ofNat 16 k }

/-- The body of DECI (R131): the base-58 digits of IBUF to NVAL, INT_OVERFLOW from 2^64 on (R166). -/
def deciBody (s : State) : Except CmdError State :=
  match inputDigits 58 s with
  | .error e => .error e
  | .ok d =>
    if 2 ^ 64 ≤ value 58 d then .error { code := .intOverflow, idx := 0 }
    else .ok (storeInteger (value 58 d) (lz d) s)

/-- The completion step of DECI (R131, R145). -/
def execDeci (s : State) : Host.Outcome State Fault Refusal := .next (finish (deciBody s) s)

end Sys2Proof.Machine
end

