-- ==== Sys2Proof/Machine/Dispatch.lean ====
section
/-! DEFINITION. One arm per command: the completion step that LCMD's decoding selects (spec/43_host_access.md rule
R145). -/

namespace Sys2Proof.Machine

def exec (i : Instr) (s : State) : Host.Outcome State Fault Refusal :=
  match i with
  | .conv sr tr z => Sys2Proof.Machine.execConv sr tr z s
  | .enci => Sys2Proof.Machine.execEnci s
  | .deci => Sys2Proof.Machine.execDeci s
  | .illegal w => Sys2Proof.Machine.execIllegal w s

end Sys2Proof.Machine
end

