-- ==== Sys2Proof/Machine/HostAccess.lean ====
section
/-! DEFINITION. The host's steps (spec/43_host_access.md rules R140 to R152): register and window reads and writes, the
POLL loop of spec/30_encoding.md rule R90, and the platform's reset input. -/

namespace Sys2Proof.Machine

/-- ID (R24): "B58" and revision 1. -/
def idWord : Word := 0x42353801

/-- PARAM (R25): `{OBUF_DEPTH[15:0], IBUF_DEPTH[15:0]}`. -/
def paramWord (c : Config) : Word := BitVec.ofNat 16 c.obufDepth ++ BitVec.ofNat 16 c.ibufDepth

/-- A 16-bit register field as the 32-bit word a read returns: bits 31:16 are 0 (R36, R37, R38, R40). -/
def halfWord (h : Half) : Word := (0 : BitVec 16) ++ h

/-- What a read of a register returns (R22 to R40). -/
def readReg (r : Reg) (s : State) : Word :=
  match r with
  | .id => idWord
  | .param => paramWord s.cfg
  | .ctrl => s.ctrlWord
  | .status => s.statusWord
  | .cmd => s.cmd
  | .ilen => halfWord s.ilen
  | .olen => halfWord s.olen
  | .zrun => halfWord s.zrun
  | .nvalLo => s.nvalLo
  | .nvalHi => s.nvalHi
  | .errIdx => halfWord s.errIdx

/-- What a read of an aligned offset returns (R141); a reserved offset reads as 0 (R62). -/
def readTarget (t : Target) (s : State) : Word :=
  match t with
  | .reg r => readReg r s
  | .ibufWord w => packEntries s.ibufEntry w
  | .obufWord w => packEntries s.obufEntry w
  | .reserved => 0

/-- A write to an input that is locked while busy: dropped with OVR set while BUSY = 1, else stored (R144). -/
def lockedWrite (store : State → State) (s : State) : State := if s.busy then setOverrun s else store s

/-- A CMD write: accepted (R142), or dropped with OVR set while BUSY = 1 (R143). -/
def writeCmd (v : Word) (s : State) : State := if s.busy then setOverrun s else accept v s

/-- A CTRL write (R147): the soft reset where bit 1 is set, then IE takes bit 0. -/
def writeCtrl (v : Word) (s : State) : State :=
  { (if v.getLsbD 1 then softReset s else s) with ie := v.getLsbD 0 }

/-- The four digits of an IBUF word write: `IBUF[4w+j] <- v[8j+7:8j]` (R148). -/
def storeIbufWord (w : Nat) (v : Word) (s : State) : State :=
  { s with ibuf := (Memory.writeList s.ibuf (4 * w)
      [byteOfWord v 0, byteOfWord v 1, byteOfWord v 2, byteOfWord v 3]) }

/-- What a write to a register does (R142 to R149). -/
def writeReg (r : Reg) (v : Word) (s : State) : State :=
  match r with
  | .ctrl => writeCtrl v s
  | .status => acknowledge v s
  | .cmd => writeCmd v s
  | .ilen => lockedWrite (fun s => { s with ilen := v.extractLsb' 0 16 }) s
  | .nvalLo => lockedWrite (fun s => { s with nvalLo := v }) s
  | .nvalHi => lockedWrite (fun s => { s with nvalHi := v }) s
  | .id => s
  | .param => s
  | .olen => s
  | .zrun => s
  | .errIdx => s

/-- What a write to an aligned offset does; OBUF and reserved offsets ignore it (R64, R62, R149). -/
def writeTarget (t : Target) (v : Word) (s : State) : State :=
  match t with
  | .reg r => writeReg r v s
  | .ibufWord w => lockedWrite (storeIbufWord w v) s
  | .obufWord _ => s
  | .reserved => s

/-- R65: the block accepts only 32-bit accesses at offsets that are multiples of 4. -/
def Access.accepted (a : Access) : Bool := a.width == .bits32 && a.off.toNat % 4 == 0

/-- The bus answers the host's access (R141, R152). DEDUCED (assumption log 7). -/
def respond (r : BusResponse) (s : State) : State := { s with resp := r }

/-- One host bus access: a bus error with no effect on the block (R152), a read with no side effect (R141), or a
write. -/
def hostAccess (a : Access) (s : State) : State :=
  if a.accepted then
    match a.kind with
    | .read => respond (.data (readTarget (target s.cfg a.off) s)) s
    | .write v => respond .written (writeTarget (target s.cfg a.off) v s)
  else respond .busError s

/-- `RD rX, off` (R90). -/
def rd (off : Offset) : Access := { off := off, width := .bits32, kind := .read }

/-- `WR off, value` (R90). -/
def wr (off : Offset) (v : Word) : Access := { off := off, width := .bits32, kind := .write v }

/-- One round of `POLL off, mask, val` (R90): a read; unless the value matches, or the bus answered with an error, the
host will read again. DESIGN CHOICE (assumption log 12). -/
def pollRound (off : Offset) (mask val : Word) (s : State) : State :=
  let t := hostAccess (rd off) s
  match t.resp with
  | .data v => if v &&& mask = val then t else { t with inputs := .poll off mask val :: t.inputs }
  | _ => t

/-- What one input does to the block. -/
def applyInput (i : Input) (s : State) : State :=
  match i with
  | .access a => hostAccess a s
  | .poll off mask val => pollRound off mask val s
  | .hardReset => hardReset s

/-- A step of the outside world: its next input, which uses up one host step of the running command's latency (U5).
With no input left the block idles (R179). DEDUCED (assumption log 15). -/
def outsideStep (s : State) : State :=
  match s.inputs with
  | [] => s
  | i :: rest => applyInput i { s with inputs := rest, latency := s.latency - 1 }

/-- The engine takes its completion step next (R52, R145): the running command's LATENCY is used up, or the host makes no
further access. DESIGN CHOICE (assumption log 5). -/
def State.completionDue (s : State) : Bool := decide (s.latency = 0) || s.inputs.isEmpty

end Sys2Proof.Machine
end

