-- ==== Sys2Proof/Machine/Step.lean ====
section
/-! DEFINITION. One step of the block and its host: the engine's completion of the latched command (spec/43_host_access.md
rule R145) or one host step (R140), interleaved as spec/20_memory.md rule R70 says. -/

namespace Sys2Proof.Machine

/-- One step. While a command is latched and its completion is due, the engine decodes LCMD and performs the body
(R145); otherwise the outside world moves. Parameters that break R6's constraints fault. -/
def step (s : State) : Host.Outcome State Fault Refusal :=
  if s.cfg.legal then
    match s.lcmd with
    | some c => if s.completionDue then exec (decode c.word) s else .next (outsideStep s)
    | none => .next (outsideStep s)
  else .fault .illegalParameters

/-- `s` with a command word latched as R142's accept latches it and its completion due at once, so that the very next
step runs exactly that command. It stands for the host's CMD write (assumption log 6). -/
def State.withFetchWord (s : State) (nbits w : Nat) : State := latchCommand (tableWord nbits w) s

end Sys2Proof.Machine
end

