-- ==== Sys2Proof/Safety.lean ====
section
/-! DEFINITION. What the statements are said in: how a command ends (spec/43_host_access.md rule R145,
spec/60_exceptions.md rules R160 and R170), which state a command leaves alone, the clean state of
spec/70_reset_and_hazards.md rule R203, and the invariant every step keeps. -/

namespace Sys2Proof.Machine

/-- The states of a B58X: the parameters meet R6's constraints. -/
abbrev State.Legal (s : State) : Prop := s.cfg.legal = true

/-! ### How a command ends -/

/-- What no completion changes: the parameters, CTRL, OVR, CMD, ILEN and every entry of IBUF (R145, R170), and the
model's own record of the outside world. -/
structure CommandFrame (s t : State) : Prop where
  cfg : t.cfg = s.cfg
  ie : t.ie = s.ie
  ovr : t.ovr = s.ovr
  cmd : t.cmd = s.cmd
  ilen : t.ilen = s.ilen
  ibuf : ∀ i, t.ibufEntry i = s.ibufEntry i
  hardResets : t.hardResets = s.hardResets
  latencies : t.latencies = s.latencies
  latencyDraws : t.latencyDraws = s.latencyDraws
  inputs : t.inputs = s.inputs
  resp : t.resp = s.resp

/-- A successful completion: DONE = 1, BUSY = 0, ECODE = NONE, ERRIDX = 0, ERR as before (R104, R145). -/
structure Succeeded (s t : State) : Prop where
  frame : CommandFrame s t
  done : t.done = true
  busy : t.busy = false
  ecode : t.ecode = .noError
  errIdx : t.errIdx = 0
  err : t.err = s.err

/-- OLEN, ZRUN, NVAL and every entry of OBUF are as they were. -/
structure ResultsUnchanged (s t : State) : Prop where
  olen : t.olen = s.olen
  zrun : t.zrun = s.zrun
  nvalLo : t.nvalLo = s.nvalLo
  nvalHi : t.nvalHi = s.nvalHi
  obuf : ∀ i, t.obufEntry i = s.obufEntry i

/-- A failed completion: DONE = 1, BUSY = 0, ERR = 1, ECODE = the code, ERRIDX = the index, and no result written
(R160). -/
structure FailedWith (code : ErrorCode) (idx : Nat) (s t : State) : Prop where
  frame : CommandFrame s t
  results : ResultsUnchanged s t
  done : t.done = true
  busy : t.busy = false
  err : t.err = true
  ecode : t.ecode = code
  errIdx : t.errIdx.toNat = idx

/-- OLEN and OBUF[0..OLEN) are the digit sequence `out`, and every further entry of OBUF is as it was (R42). -/
structure OutputIs (out : List Nat) (s t : State) : Prop where
  olen : t.olen.toNat = out.length
  written : ∀ i (h : i < out.length), (t.obufEntry i).toNat = out[i]
  rest : ∀ i, out.length ≤ i → t.obufEntry i = s.obufEntry i

/-- The output sequence OBUF[0..OLEN). -/
def State.outputDigits (s : State) : List Nat :=
  (List.range s.olen.toNat).map fun i => (s.obufEntry i).toNat

/-! ### Whole-machine notions -/

/-- R203's clean state: engine IDLE, BUSY = 0, ERR = 0, OVR = 0. -/
def State.Clean (s : State) : Prop := s.phase = .idle ∧ s.busy = false ∧ s.err = false ∧ s.ovr = false

/-- The next step is the completion of a running command (R145). -/
def State.Completes (s : State) : Prop := s.busy = true ∧ s.completionDue = true

/-- The next step applies this input (R140). -/
def State.Takes (s : State) (i : Input) : Prop :=
  ¬ (s.busy = true ∧ s.completionDue = true) ∧ s.inputs.head? = some i

/-- An aligned 32-bit write of `v` to offset `off`. -/
def Input.writes (off : Offset) (v : Word) : Input := .access (wr off v)

/-- The inputs that abandon a running command (R52): the reset input, and a CTRL write with bit 1 set (R147). -/
def Input.isReset : Input → Bool
  | .hardReset => true
  | .poll _ _ _ => false
  | .access a =>
    a.accepted && a.off == 0x008 &&
      match a.kind with
      | .write v => v.getLsbD 1
      | .read => false

/-- The accept-time snapshot agrees with the live registers (R51): while a command runs, LCMD's word is CMD and its
operands are ILEN, IBUF and NVAL as they stand. -/
def State.SnapshotLive (s : State) : Prop :=
  ∀ c, s.lcmd = some c → c.word = s.cmd ∧ c.ilen = s.ilen ∧ c.ibuf = s.ibuf ∧ c.nval = s.nval

/-- The invariant of the machine. -/
structure State.Inv (s : State) : Prop where
  /-- The parameters meet R6's constraints. -/
  legal : s.Legal
  /-- IBUF and OBUF are in canonical form and hold no entry beyond their depths (R41, R42). -/
  ibufWf : Memory.wf s.ibuf
  obufWf : Memory.wf s.obuf
  ibufBound : ∀ c ∈ s.ibuf, c.1 < s.cfg.ibufDepth
  obufBound : ∀ c ∈ s.obuf, c.1 < s.cfg.obufDepth
  /-- R51: the snapshot equals the live registers throughout the command. -/
  snapshot : s.SnapshotLive
  /-- DONE is 0 while a command runs: accept clears it, completion sets it and clears BUSY (R142, R145). -/
  busyNotDone : s.busy = true → s.done = false
  /-- OLEN never exceeds OBUF_DEPTH, and ZRUN never exceeds IBUF_DEPTH (R104, R130, R131). -/
  olen : s.olen.toNat ≤ s.cfg.obufDepth
  zrun : s.zrun.toNat ≤ s.cfg.ibufDepth
  /-- ERRIDX is an index of IBUF, and 0 unless ECODE is DIGIT_RANGE (R40). -/
  errIdx : s.errIdx.toNat < s.cfg.ibufDepth
  errIdxZero : s.ecode ≠ .digitRange → s.errIdx = 0

end Sys2Proof.Machine
end

