-- ==== Sys2Proof/Certificates/Slice0/Obligations.lean ====
section
/-! DEFINITION. The statements about the model, from the numbered rules of spec/. -/

open Sys2Proof Sys2Proof.Machine

/-! ### Encoding -/

/-- spec/30_encoding.md R81 and R83: no bit of a command's encoding is dropped. -/
def Obligations.DecodeOfEncode : Prop :=
  ∀ i : Instr, wellFormed i = true → decode (encode i) = i

/-- spec/30_encoding.md R83: the decoder is total, and each word is the encoding of what it decodes to. -/
def Obligations.EncodeOfDecode : Prop :=
  ∀ w : Word, wellFormed (decode w) = true ∧ encode (decode w) = w

/-- R87: the 13 legal command words and what each stands for; every other word decodes as ILLEGAL. -/
def Obligations.ThirteenLegalWords : Prop :=
  let table : List (Word × Instr) :=
    [(0x00000001, .conv .ten .ten false), (0x00000011, .conv .fiftyEight .ten false),
     (0x00000021, .conv .twoFiftySix .ten false), (0x00000041, .conv .ten .fiftyEight false),
     (0x00000051, .conv .fiftyEight .fiftyEight false), (0x00000061, .conv .twoFiftySix .fiftyEight false),
     (0x00000081, .conv .ten .twoFiftySix false), (0x00000091, .conv .fiftyEight .twoFiftySix false),
     (0x000000A1, .conv .twoFiftySix .twoFiftySix false), (0x00000161, .conv .twoFiftySix .fiftyEight true),
     (0x00000191, .conv .fiftyEight .twoFiftySix true), (0x00000002, .enci), (0x00000003, .deci)]
  (∀ p ∈ table, decode p.1 = p.2) ∧ (∀ w : Word, w ∉ table.map Prod.fst → decode w = .illegal w)

/-- R91: the words of the seven pseudo-commands decode to the commands they name. -/
def Obligations.PseudoCommandWords : Prop :=
  decode 0x00000161 = .conv .twoFiftySix .fiftyEight true ∧ decode 0x00000191 = .conv .fiftyEight .twoFiftySix true ∧
  decode 0x00000002 = .enci ∧ decode 0x00000003 = .deci ∧
  decode 0x00000021 = .conv .twoFiftySix .ten false ∧ decode 0x00000041 = .conv .ten .fiftyEight false ∧
  decode 0x00000011 = .conv .fiftyEight .ten false

/-- R88: the illegal words by their bits, each accepted and completing with ILLEGAL_CMD with no result written. -/
def Obligations.IllegalWordsCompleteWithIllegalCmd : Prop :=
  ∀ w : Word,
    let op := w.extractLsb' 0 4
    let sr := w.extractLsb' 4 2
    let tr := w.extractLsb' 6 2
    let listed : Prop :=
      (op = 0x0 ∨ 0x4 ≤ op) ∨
      (op = 0x1 ∧ (w.extractLsb' 9 23 ≠ 0 ∨ sr = 3 ∨ tr = 3 ∨
        (w.getLsbD 8 = true ∧ ¬ (sr = 2 ∧ tr = 1) ∧ ¬ (sr = 1 ∧ tr = 2)))) ∨
      ((op = 0x2 ∨ op = 0x3) ∧ w.extractLsb' 4 28 ≠ 0)
    (decode w = .illegal w ↔ listed) ∧
    (listed → ∀ s : State, s.busy = false →
      (hostAccess (wr 0x010 w) s).busy = true ∧ (hostAccess (wr 0x010 w) s).cmd = w ∧
      ∃ t, exec (decode w) (hostAccess (wr 0x010 w) s) = .next t ∧
        FailedWith .illegalCmd 0 (hostAccess (wr 0x010 w) s) t)

/-! ### Number functions -/

/-- R100: the accumulator over the digits, which for digits below the radix is the positional sum and lies below
`R^len`. -/
def Obligations.ValueIsThePositionalSum : Prop :=
  ∀ (r : Radix) (d : List Nat),
    value r.base [] = 0 ∧
    (∀ x, value r.base (d ++ [x]) = value r.base d * r.base + x) ∧
    ((∀ x ∈ d, x < r.base) →
      value r.base d = ((List.range d.length).map fun i => d.getD i 0 * r.base ^ (d.length - 1 - i)).sum ∧
      value r.base d < r.base ^ d.length)

/-- R101: each round of the loop prepends the remainder and divides, until the accumulator is zero. -/
def Obligations.DigitsByRepeatedDivision : Prop :=
  ∀ r : Radix, digits r.base 0 = [] ∧
    ∀ N : Nat, N ≠ 0 → digits r.base N = digits r.base (N / r.base) ++ [N % r.base]

/-- R102: for N at least 1, `digits_R(N)` is the unique digit sequence of N with no leading zero, of the unique length
L with `R^(L-1) <= N < R^L`. -/
def Obligations.DigitsUniqueWithoutLeadingZero : Prop :=
  ∀ (r : Radix) (N : Nat), 1 ≤ N →
    let d := digits r.base N
    (∀ x ∈ d, x < r.base) ∧ (∃ x, d.head? = some x ∧ x ≠ 0) ∧ value r.base d = N ∧
    (∀ L, 1 ≤ L → (d.length = L ↔ r.base ^ (L - 1) ≤ N ∧ N < r.base ^ L)) ∧
    (∀ e : List Nat, (∀ x ∈ e, x < r.base) → e.head? ≠ some 0 → value r.base e = N → e = d)

/-- R103: `lz(d)` is the largest k with `d[0..k)` all zero, and leading zeros add no magnitude. -/
def Obligations.LeadingZeroRun : Prop :=
  lz [] = 0 ∧ (∀ n, lz (List.replicate n 0) = n) ∧
  ∀ d : List Nat,
    lz d ≤ d.length ∧ (∀ x ∈ d.take (lz d), x = 0) ∧
    (∀ k ≤ d.length, (∀ x ∈ d.take k, x = 0) → k ≤ lz d) ∧
    ∀ r : Radix, value r.base d = value r.base (d.drop (lz d))

/-- R107's bounds on OLEN, for both values of Z, its table of maxima at 256 digits, that all are at most 1024,
and that OBUF_DEPTH can be exceeded for other legal depths. -/
def Obligations.OutputLengthBounds : Prop :=
  let lmax (r1 r2 : Radix) (j : Nat) : Nat := (digits r2.base (r1.base ^ j - 1)).length
  (∀ (r1 r2 : Radix) (d : List Nat), (∀ x ∈ d, x < r1.base) →
    (convOutput r1.base r2.base false d).length ≤ lmax r1 r2 (d.length - lz d) ∧
    (convOutput r1.base r2.base true d).length =
      lz d + (digits r2.base (value r1.base (d.drop (lz d)))).length ∧
    (convOutput r1.base r2.base true d).length ≤ lz d + lmax r1 r2 (d.length - lz d)) ∧
  (lmax .ten .ten 256 = 256 ∧ lmax .ten .fiftyEight 256 = 146 ∧ lmax .ten .twoFiftySix 256 = 107 ∧
   lmax .fiftyEight .ten 256 = 452 ∧ lmax .fiftyEight .fiftyEight 256 = 256 ∧ lmax .fiftyEight .twoFiftySix 256 = 188 ∧
   lmax .twoFiftySix .ten 256 = 617 ∧ lmax .twoFiftySix .fiftyEight 256 = 350 ∧
   lmax .twoFiftySix .twoFiftySix 256 = 256) ∧
  (∀ k ≤ 256, k + lmax .twoFiftySix .fiftyEight (256 - k) ≤ 350 ∧ k + lmax .fiftyEight .twoFiftySix (256 - k) ≤ 256) ∧
  (∀ (r1 r2 : Radix) (z : Bool) (d : List Nat), zeroRunLegal r1 r2 z = true → (∀ x ∈ d, x < r1.base) →
    d.length ≤ 256 → (convOutput r1.base r2.base z d).length ≤ 1024) ∧
  (∃ (c : Config) (d : List Nat), c.legal = true ∧ d.length ≤ c.ibufDepth ∧ (∀ x ∈ d, x < Radix.twoFiftySix.base) ∧
    c.obufDepth < (convOutput Radix.twoFiftySix.base Radix.ten.base false d).length)

/-- R108: the longest images of short inputs with no leading zero, on the two byte paths. -/
def Obligations.ShortInputLengths : Prop :=
  ∀ d : List Nat, d.head? ≠ some 0 →
    (∀ p ∈ [(1, 2), (2, 3), (3, 5), (4, 6), (5, 7), (6, 9), (7, 10), (8, 11)],
      d.length = p.1 → (∀ x ∈ d, x < 256) → (digits 58 (value 256 d)).length ≤ p.2) ∧
    (∀ p ∈ [(1, 1), (2, 2), (3, 3), (4, 3), (5, 4), (6, 5), (7, 6), (8, 6)],
      d.length = p.1 → (∀ x ∈ d, x < 58) → (digits 256 (value 58 d)).length ≤ p.2)

/-! ### Commands -/

/-- R104: CONV, every branch of its pseudocode, over the operands of the command. -/
def Obligations.ConvMeetsItsRule : Prop :=
  ∀ (sr tr : Radix) (z : Bool) (s : State), s.Legal →
    let d := operandDigits s
    let out := if z = true then List.replicate (lz d) 0 ++ digits tr.base (value sr.base (d.drop (lz d)))
      else digits tr.base (value sr.base d)
    (s.cfg.ibufDepth < operandLen s →
      ∃ t, exec (.conv sr tr z) s = .next t ∧ FailedWith .lenRange 0 s t) ∧
    (operandLen s ≤ s.cfg.ibufDepth → ∀ i (h : i < d.length), sr.base ≤ d[i] →
      (∀ j (hj : j < i), d[j] < sr.base) →
      ∃ t, exec (.conv sr tr z) s = .next t ∧ FailedWith .digitRange i s t) ∧
    (operandLen s ≤ s.cfg.ibufDepth → (∀ x ∈ d, x < sr.base) → s.cfg.obufDepth < out.length →
      ∃ t, exec (.conv sr tr z) s = .next t ∧ FailedWith .outOverflow 0 s t) ∧
    (operandLen s ≤ s.cfg.ibufDepth → (∀ x ∈ d, x < sr.base) → out.length ≤ s.cfg.obufDepth →
      ∃ t, exec (.conv sr tr z) s = .next t ∧ Succeeded s t ∧ OutputIs out s t ∧ t.zrun.toNat = lz d ∧
        t.nvalLo = s.nvalLo ∧ t.nvalHi = s.nvalHi)

/-- spec/40_base_conversion.md R104, spec/93_implementation_defined.md U11: at the spec's depths CONV completes with its
result for every legal input. -/
def Obligations.ConvCompletesAtSpecDepths : Prop :=
  ∀ (sr tr : Radix) (z : Bool) (s : State), s.cfg.ibufDepth = 256 → s.cfg.obufDepth = 1024 →
    zeroRunLegal sr tr z = true → operandLen s ≤ 256 → (∀ x ∈ operandDigits s, x < sr.base) →
    ∃ t, exec (.conv sr tr z) s = .next t ∧ Succeeded s t ∧ t.zrun.toNat = lz (operandDigits s) ∧
      value tr.base t.outputDigits = value sr.base (operandDigits s) ∧
      lz t.outputDigits = if z = true then lz (operandDigits s) else 0

/-- R130: ENCI writes the base-58 digits of NVAL, ZRUN 0, and never fails. -/
def Obligations.EnciMeetsItsRule : Prop :=
  ∀ s : State, s.Legal →
    (digits 58 (operandInt s)).length ≤ 11 ∧
    ∃ t, exec .enci s = .next t ∧ Succeeded s t ∧ OutputIs (digits 58 (operandInt s)) s t ∧ t.zrun = 0 ∧
      t.nvalLo = s.nvalLo ∧ t.nvalHi = s.nvalHi

/-- R131: DECI, every branch of its pseudocode, over the operands of the command. -/
def Obligations.DeciMeetsItsRule : Prop :=
  ∀ s : State, s.Legal →
    let d := operandDigits s
    (s.cfg.ibufDepth < operandLen s → ∃ t, exec .deci s = .next t ∧ FailedWith .lenRange 0 s t) ∧
    (operandLen s ≤ s.cfg.ibufDepth → ∀ i (h : i < d.length), 58 ≤ d[i] → (∀ j (hj : j < i), d[j] < 58) →
      ∃ t, exec .deci s = .next t ∧ FailedWith .digitRange i s t) ∧
    (operandLen s ≤ s.cfg.ibufDepth → (∀ x ∈ d, x < 58) → 2 ^ 64 ≤ value 58 d →
      ∃ t, exec .deci s = .next t ∧ FailedWith .intOverflow 0 s t) ∧
    (operandLen s ≤ s.cfg.ibufDepth → (∀ x ∈ d, x < 58) → value 58 d < 2 ^ 64 →
      ∃ t, exec .deci s = .next t ∧ Succeeded s t ∧ t.nval.toNat = value 58 d ∧ t.zrun.toNat = lz d ∧
        t.olen = s.olen ∧ ∀ i, t.obufEntry i = s.obufEntry i)

/-- R162: an accepted word that decodes as ILLEGAL raises ILLEGAL_CMD, whatever ILEN and IBUF hold. -/
def Obligations.IllegalMeetsItsRule : Prop :=
  ∀ (w : Word) (s : State), ∃ t, exec (.illegal w) s = .next t ∧ FailedWith .illegalCmd 0 s t

/-- R160: an error at a command's completion leaves the state before the command, except STATUS, CMD and ERRIDX. -/
def Obligations.ErrorsArePrecise : Prop :=
  ∀ (w : Word) (s t : State), s.busy = false → exec (decode w) (hostAccess (wr 0x010 w) s) = .next t →
    t.ecode ≠ .noError →
      t.err = true ∧ t.done = true ∧ t.busy = false ∧ (t.ecode ≠ .digitRange → t.errIdx = 0) ∧
      (t.ecode = .digitRange →
        ∃ R, ((∃ sr tr z, decode w = .conv sr tr z ∧ R = sr.base) ∨ (decode w = .deci ∧ R = 58)) ∧
          ∃ h : t.errIdx.toNat < (operandDigits s).length, R ≤ (operandDigits s)[t.errIdx.toNat] ∧
            ∀ j (hj : j < t.errIdx.toNat), (operandDigits s)[j] < R) ∧
      t.cfg = s.cfg ∧ t.ie = s.ie ∧ t.ovr = s.ovr ∧ t.ilen = s.ilen ∧ ResultsUnchanged s t ∧
      ∀ i, t.ibufEntry i = s.ibufEntry i

/-- R169: of several errors that apply, the completion reports the first in the order of the rule. -/
def Obligations.ErrorPriority : Prop :=
  ∀ (i : Instr) (s t : State), s.Legal → exec i s = .next t →
    let d := operandDigits s
    let source : Option Nat := match i with
      | .conv sr _ _ => some sr.base
      | .deci => some 58
      | .enci => none
      | .illegal _ => none
    ((∃ w, i = .illegal w) → t.ecode = .illegalCmd) ∧
    (∀ R, source = some R → s.cfg.ibufDepth < operandLen s → t.ecode = .lenRange) ∧
    (∀ R, source = some R → operandLen s ≤ s.cfg.ibufDepth → (∃ x ∈ d, R ≤ x) →
      t.ecode = .digitRange ∧ ∃ h : t.errIdx.toNat < d.length, R ≤ d[t.errIdx.toNat] ∧
        ∀ j (hj : j < t.errIdx.toNat), d[j] < R) ∧
    ((source = none ∨ operandLen s ≤ s.cfg.ibufDepth ∧ ∀ R, source = some R → ∀ x ∈ d, x < R) →
      (∀ sr tr z, i = .conv sr tr z →
        (t.ecode = .outOverflow ↔ s.cfg.obufDepth < (convOutput sr.base tr.base z d).length)) ∧
      (i = .enci → (t.ecode = .outOverflow ↔ s.cfg.obufDepth < (digits 58 (operandInt s)).length)) ∧
      (i = .deci → (t.ecode = .intOverflow ↔ 2 ^ 64 ≤ value 58 d)))

/-- R165: OUT_OVERFLOW exactly when the output is longer than OBUF_DEPTH, nothing committed; not at the spec's depths,
and never for ENCI. -/
def Obligations.OutOverflowExactlyWhenTooLong : Prop :=
  ∀ s t : State, s.Legal →
    (∀ sr tr z, exec (.conv sr tr z) s = .next t → operandLen s ≤ s.cfg.ibufDepth →
      (∀ x ∈ operandDigits s, x < sr.base) →
      ((t.ecode = .outOverflow ↔ s.cfg.obufDepth < (convOutput sr.base tr.base z (operandDigits s)).length) ∧
       (t.ecode = .outOverflow → ResultsUnchanged s t))) ∧
    (∀ sr tr z, exec (.conv sr tr z) s = .next t → zeroRunLegal sr tr z = true →
      s.cfg.ibufDepth = 256 → s.cfg.obufDepth = 1024 → t.ecode ≠ .outOverflow) ∧
    (exec .enci s = .next t → t.ecode ≠ .outOverflow)

/-- R122: with Z = 1 the output is the stripped input's digits behind the restored run, whose length is exactly k. -/
def Obligations.ZeroRunRestored : Prop :=
  ∀ (sr tr : Radix) (s : State), s.Legal → operandLen s ≤ s.cfg.ibufDepth →
    (∀ x ∈ operandDigits s, x < sr.base) →
    let d := operandDigits s
    let k := lz d
    k + (digits tr.base (value sr.base (d.drop k))).length ≤ s.cfg.obufDepth →
    ∃ t, exec (.conv sr tr true) s = .next t ∧ t.ecode = .noError ∧
      t.outputDigits = List.replicate k 0 ++ digits tr.base (value sr.base (d.drop k)) ∧
      lz t.outputDigits = k ∧ (d.drop k = [] → t.outputDigits = List.replicate k 0)

/-- R124: ENC of k zero bytes followed by a non-zero byte begins with exactly k zero digits. -/
def Obligations.ZeroPreservation : Prop :=
  ∀ (s t : State) (k : Nat), s.Legal → operandLen s ≤ s.cfg.ibufDepth →
    (∀ i < k, operandEntry s i = 0) → k < operandLen s → operandEntry s k ≠ 0 →
    exec (.conv .twoFiftySix .fiftyEight true) s = .next t → t.ecode = .noError →
      k < t.olen.toNat ∧ (∀ i < k, t.obufEntry i = 0) ∧ t.obufEntry k ≠ 0

/-- R126: with Z = 0 the leading zeros are dropped from the output and ZRUN still reports their count. -/
def Obligations.PlainConvDropsLeadingZeros : Prop :=
  ∀ (sr tr : Radix) (s : State), s.Legal → operandLen s ≤ s.cfg.ibufDepth →
    (∀ x ∈ operandDigits s, x < sr.base) →
    (digits tr.base (value sr.base (operandDigits s))).length ≤ s.cfg.obufDepth →
    ∃ t, exec (.conv sr tr false) s = .next t ∧ t.ecode = .noError ∧
      t.outputDigits = digits tr.base (value sr.base ((operandDigits s).drop (lz (operandDigits s)))) ∧
      t.outputDigits.head? ≠ some 0 ∧ t.zrun.toNat = lz (operandDigits s)

/-- spec/40_base_conversion.md R105 item 3: for R1 = R2 and Z = 0 the output is the input without its leading zeros. -/
def Obligations.SameRadixConvStripsOnly : Prop :=
  ∀ (r : Radix) (s : State), s.Legal → operandLen s ≤ s.cfg.ibufDepth → operandLen s ≤ s.cfg.obufDepth →
    (∀ x ∈ operandDigits s, x < r.base) →
    ∃ t, exec (.conv r r false) s = .next t ∧ Succeeded s t ∧
      t.outputDigits = (operandDigits s).drop (lz (operandDigits s))

/-- R125: DEC of the result of ENC returns the bytes. -/
def Obligations.EncodeThenDecodeReturnsBytes : Prop :=
  ∀ s t u : State, s.Legal → operandLen s ≤ s.cfg.ibufDepth →
    exec (.conv .twoFiftySix .fiftyEight true) s = .next t → t.ecode = .noError →
    t.olen.toNat ≤ s.cfg.ibufDepth →
    u.cfg = s.cfg → operandLen u = t.olen.toNat →
    (∀ i < t.olen.toNat, operandEntry u i = t.obufEntry i) →
    ∃ v, exec (.conv .fiftyEight .twoFiftySix true) u = .next v ∧ v.ecode = .noError ∧
      v.olen.toNat = operandLen s ∧ ∀ i < operandLen s, v.obufEntry i = operandEntry s i

/-- R133: DECI of the result of ENCI, copied to IBUF, returns the integer, 0 through the empty sequence included. -/
def Obligations.EncodeThenDecodeReturnsInteger : Prop :=
  ∀ s t u : State, s.Legal → exec .enci s = .next t → t.olen.toNat ≤ s.cfg.ibufDepth →
    u.cfg = s.cfg → operandLen u = t.olen.toNat →
    (∀ i < t.olen.toNat, operandEntry u i = t.obufEntry i) →
    ∃ v, exec .deci u = .next v ∧ v.ecode = .noError ∧ v.nval.toNat = operandInt s

/-- R204: what a command commits depends only on the command and its accept-time inputs. -/
def Obligations.CommandsArePureFunctions : Prop :=
  ∀ (i : Instr) (s u t v : State), u.cfg = s.cfg → operandLen u = operandLen s →
    (∀ j < operandLen s, operandEntry u j = operandEntry s j) → operandInt u = operandInt s →
    exec i s = .next t → exec i u = .next v →
      t.ecode = v.ecode ∧ t.errIdx = v.errIdx ∧
      (t.ecode = .noError →
        t.zrun = v.zrun ∧
        (i = .deci → t.nval = v.nval) ∧
        (i ≠ .deci → t.olen = v.olen ∧ t.outputDigits = v.outputDigits))

/-- spec/10_state.md R50: every magnitude a command forms lies within ACC, at every point of the loop. -/
def Obligations.AccumulatorNeverOverflows : Prop :=
  ∀ (r : Radix) (s : State), s.Legal → operandLen s ≤ s.cfg.ibufDepth → (∀ x ∈ operandDigits s, x < r.base) →
    ∀ j, value r.base ((operandDigits s).take j) < 256 ^ s.cfg.ibufDepth ∧
      value r.base ((operandDigits s).take j) < 2 ^ s.cfg.accBits ∧ operandInt s < 2 ^ s.cfg.accBits

/-! ### Host accesses -/

/-- R24 and R25, and what the other registers read as (spec/10_state.md R28, R34 to R40; spec/43_host_access.md R141):
the read changes nothing but the bus response, and ID and PARAM ignore writes. -/
def Obligations.RegisterReads : Prop :=
  ∀ s : State,
    let reads (off : Offset) (v : Word) : Prop := hostAccess (rd off) s = { s with resp := .data v }
    reads 0x000 0x42353801 ∧
    reads 0x004 (BitVec.ofNat 16 s.cfg.obufDepth ++ BitVec.ofNat 16 s.cfg.ibufDepth) ∧
    reads 0x008 (if s.ie = true then 1 else 0) ∧
    reads 0x00C s.statusWord ∧ reads 0x010 s.cmd ∧
    reads 0x014 (s.ilen.setWidth 32) ∧ reads 0x018 (s.olen.setWidth 32) ∧ reads 0x01C (s.zrun.setWidth 32) ∧
    reads 0x020 s.nvalLo ∧ reads 0x024 s.nvalHi ∧ reads 0x028 (s.errIdx.setWidth 32) ∧
    ∀ v : Word, hostAccess (wr 0x000 v) s = { s with resp := .written } ∧
      hostAccess (wr 0x004 v) s = { s with resp := .written }

/-- R34: the layout of STATUS, its reserved bits 0, and that a write leaves BUSY and ECODE alone. The last clause gives
the number of each error code that ECODE can hold, in the table of spec/60_exceptions.md R161. -/
def Obligations.StatusWordLayout : Prop :=
  ∀ s : State,
    s.statusWord.getLsbD 0 = s.busy ∧ s.statusWord.getLsbD 1 = s.done ∧ s.statusWord.getLsbD 2 = s.err ∧
    s.statusWord.getLsbD 3 = s.ovr ∧ s.statusWord.extractLsb' 4 4 = 0 ∧
    s.statusWord.extractLsb' 8 4 = s.ecode.number ∧ s.statusWord.extractLsb' 12 20 = 0 ∧
    (∀ v : Word, (hostAccess (wr 0x00C v) s).busy = s.busy ∧ (hostAccess (wr 0x00C v) s).ecode = s.ecode) ∧
    s.statusWord.extractLsb' 8 4 = (match s.ecode with
      | .noError => 0
      | .illegalCmd => 1
      | .lenRange => 2
      | .digitRange => 3
      | .outOverflow => 4
      | .intOverflow => 5)

/-- spec/20_memory.md R63, R64 and R66: a read of a buffer window word returns its four entries, entry 4w in the low
byte, and changes nothing but the bus response. -/
def Obligations.BufferWindowReads : Prop :=
  ∀ (s : State) (off : Offset) (w : Nat), s.Legal →
    (off.toNat = 0x1000 + 4 * w → w < s.cfg.ibufDepth / 4 →
      ∃ v : Word, hostAccess (rd off) s = { s with resp := .data v } ∧
        ∀ j < 4, v.extractLsb' (8 * j) 8 = s.ibufEntry (4 * w + j)) ∧
    (off.toNat = 0x2000 + 4 * w → w < s.cfg.obufDepth / 4 →
      ∃ v : Word, hostAccess (rd off) s = { s with resp := .data v } ∧
        ∀ j < 4, v.extractLsb' (8 * j) 8 = s.obufEntry (4 * w + j))

/-- R62 over the reserved ranges of R61's map: reads return 0, writes are ignored, no side effect, no OVR. -/
def Obligations.ReservedOffsets : Prop :=
  ∀ (s : State) (off : Offset) (v : Word), s.Legal → off.toNat % 4 = 0 →
    (0x002C ≤ off.toNat ∧ off.toNat < 0x1000) ∨
    (0x1000 + s.cfg.ibufDepth ≤ off.toNat ∧ off.toNat < 0x2000) ∨ 0x2000 + s.cfg.obufDepth ≤ off.toNat →
    hostAccess (rd off) s = { s with resp := .data 0 } ∧ hostAccess (wr off v) s = { s with resp := .written }

/-- R149: writes that are ignored and do not set OVR. -/
def Obligations.IgnoredWrites : Prop :=
  ∀ (s : State) (off : Offset) (v : Word), s.Legal → off.toNat % 4 = 0 →
    off ∈ [0x000, 0x004, 0x018, 0x01C, 0x028] ∨
    (0x2000 ≤ off.toNat ∧ off.toNat < 0x2000 + s.cfg.obufDepth) ∨
    (0x002C ≤ off.toNat ∧ off.toNat < 0x1000) ∨
    (0x1000 + s.cfg.ibufDepth ≤ off.toNat ∧ off.toNat < 0x2000) ∨ 0x2000 + s.cfg.obufDepth ≤ off.toNat →
    hostAccess (wr off v) s = { s with resp := .written }

/-- R142: command accept, and what STATUS reads as after it: BUSY = 1, or after the completion BUSY = 0 with DONE = 1. -/
def Obligations.CommandAccept : Prop :=
  ∀ (s : State) (w : Word), s.busy = false →
    let t := hostAccess (wr 0x010 w) s
    t.cmd = w ∧ t.lcmd = some { word := w, ilen := s.ilen, ibuf := s.ibuf, nval := s.nval } ∧
    t.done = false ∧ t.busy = true ∧ t.phase = .run ∧
    t.ecode = s.ecode ∧ t.err = s.err ∧ t.ovr = s.ovr ∧ ResultsUnchanged s t ∧ t.errIdx = s.errIdx ∧
    t.cfg = s.cfg ∧ t.ie = s.ie ∧ t.ilen = s.ilen ∧ (∀ i, t.ibufEntry i = s.ibufEntry i) ∧
    (hostAccess (rd 0x00C) t).resp = .data t.statusWord ∧
    ∃ u, exec (decode w) t = .next u ∧ u.busy = false ∧ u.done = true

/-- R143: a CMD write while busy is dropped, and only OVR records it. -/
def Obligations.CommandWhileBusyDropped : Prop :=
  ∀ (s : State) (w : Word), s.busy = true →
    hostAccess (wr 0x010 w) s = { s with ovr := true, resp := .written }

/-- R144: the input lock, and what the same write stores while BUSY = 0. -/
def Obligations.InputLock : Prop :=
  ∀ (s : State) (v : Word), s.Legal →
    (s.busy = true →
      (∀ off ∈ [(0x014 : Offset), 0x020, 0x024], hostAccess (wr off v) s = { s with ovr := true, resp := .written }) ∧
      (∀ (off : Offset) (w : Nat), off.toNat = 0x1000 + 4 * w → w < s.cfg.ibufDepth / 4 →
        hostAccess (wr off v) s = { s with ovr := true, resp := .written })) ∧
    (s.busy = false →
      hostAccess (wr 0x014 v) s = { s with ilen := v.setWidth 16, resp := .written } ∧
      hostAccess (wr 0x020 v) s = { s with nvalLo := v, resp := .written } ∧
      hostAccess (wr 0x024 v) s = { s with nvalHi := v, resp := .written } ∧
      (∀ (off : Offset) (w : Nat), off.toNat = 0x1000 + 4 * w → w < s.cfg.ibufDepth / 4 →
        ∀ j < 4, (hostAccess (wr off v) s).ibufEntry (4 * w + j) = v.extractLsb' (8 * j) 8))

/-- R148: an IBUF word write stores four digits while idle, with its frame, and the word reads back; while busy it is
dropped, and beyond IBUF_DEPTH it is ignored. -/
def Obligations.IbufWordWrite : Prop :=
  ∀ (s : State) (off : Offset) (w : Nat) (v : Word), s.Legal → off.toNat = 0x1000 + 4 * w → off.toNat < 0x2000 →
    let t := hostAccess (wr off v) s
    (w < s.cfg.ibufDepth / 4 → s.busy = false →
      (∀ j < 4, t.ibufEntry (4 * w + j) = v.extractLsb' (8 * j) 8) ∧
      (∀ i, i < 4 * w ∨ 4 * w + 4 ≤ i → t.ibufEntry i = s.ibufEntry i) ∧
      (∃ m, t = { s with ibuf := m, resp := .written }) ∧
      (hostAccess (rd off) t).resp = .data v) ∧
    (w < s.cfg.ibufDepth / 4 → s.busy = true → t = { s with ovr := true, resp := .written }) ∧
    (s.cfg.ibufDepth / 4 ≤ w → t = { s with resp := .written })

/-- R146: a STATUS write clears DONE, ERR and OVR where its bits 1, 2 and 3 are set, busy or not, and does nothing
else. -/
def Obligations.StatusWriteClears : Prop :=
  ∀ (s : State) (v : Word),
    hostAccess (wr 0x00C v) s = { s with
      done := if v.getLsbD 1 = true then false else s.done
      err := if v.getLsbD 2 = true then false else s.err
      ovr := if v.getLsbD 3 = true then false else s.ovr
      resp := .written }

/-- R191: the soft reset, with the IE store of R147 after it; the CTRL write without bit 1 stores IE only. -/
def Obligations.CtrlWriteAndSoftReset : Prop :=
  ∀ (s : State) (v : Word),
    let t := hostAccess (wr 0x008 v) s
    (v.getLsbD 1 = true →
      t.phase = .idle ∧ t.lcmd = none ∧ t.statusWord = 0 ∧ t.cmd = 0 ∧ t.ilen = 0 ∧ t.olen = 0 ∧ t.zrun = 0 ∧
      t.nvalLo = 0 ∧ t.nvalHi = 0 ∧ t.errIdx = 0 ∧ t.ie = v.getLsbD 0 ∧ t.cfg = s.cfg ∧
      (∀ i, t.ibufEntry i = s.ibufEntry i) ∧ (∀ i, t.obufEntry i = s.obufEntry i)) ∧
    (v.getLsbD 1 = false → t = { s with ie := v.getLsbD 0, resp := .written })

/-- R152: an access that is not 32 bits wide or not word-aligned, and no other, gets a bus error, and it changes no
block state. -/
def Obligations.BusErrorHasNoEffect : Prop :=
  ∀ (s : State) (a : Access),
    ((hostAccess a s).resp = .busError ↔ a.width ≠ .bits32 ∨ a.off.toNat % 4 ≠ 0) ∧
    (a.width ≠ .bits32 ∨ a.off.toNat % 4 ≠ 0 → hostAccess a s = { s with resp := .busError })

/-- spec/20_memory.md R60 with spec/43_host_access.md R150: the addresses of the window are those from BASE to
BASE + 0x3FFF, each reached by its own offset (assumption log 14). -/
def Obligations.WindowAddresses : Prop :=
  ∀ c : Config, (∀ off : Offset, offsetOf c (busAddress c off) = some off) ∧
    (∀ addr, addr < c.base ∨ c.base + 0x3FFF < addr → offsetOf c addr = none) ∧
    (∀ addr off, offsetOf c addr = some off → busAddress c off = addr)

/-- R190: what hard reset leaves in every register, flag and hidden field that it determines (R45), in the reset state
and after the reset input. -/
def Obligations.HardResetValues : Prop :=
  ∀ s : State, s = State.reset ∨ (∃ u, s = applyInput .hardReset u) →
    (hostAccess (rd 0x000) s).resp = .data 0x42353801 ∧
    (hostAccess (rd 0x004) s).resp = .data (BitVec.ofNat 16 s.cfg.obufDepth ++ BitVec.ofNat 16 s.cfg.ibufDepth) ∧
    s.ie = false ∧ s.statusWord = 0 ∧ s.cmd = 0 ∧ s.ilen = 0 ∧ s.olen = 0 ∧ s.zrun = 0 ∧ s.nvalLo = 0 ∧
    s.nvalHi = 0 ∧ s.errIdx = 0 ∧ s.lcmd = none ∧ s.phase = .idle ∧ s.irq = false

/-- spec/93_implementation_defined.md U1, in the model's form of it (assumption log 1): each hard reset draws every
buffer entry anew, as the free value of that reset and entry. -/
def Obligations.HardResetRedrawsBuffers : Prop :=
  ∀ s : State,
    let t := applyInput .hardReset s
    t.hardResets = s.hardResets + 1 ∧
    (∀ i, t.ibufEntry i = Config.ibufPowerOn (s.hardResets + 1) i) ∧
    (∀ i, t.obufEntry i = Config.obufPowerOn (s.hardResets + 1) i)

/-- spec/70_reset_and_hazards.md R203: both resets establish a clean state. -/
def Obligations.ResetsAreClean : Prop :=
  State.reset.Clean ∧ ∀ s : State, (applyInput .hardReset s).Clean ∧
    ∀ v : Word, v.getLsbD 1 = true → (hostAccess (wr 0x008 v) s).Clean

/-! ### The machine as a whole -/

/-- spec/43_host_access.md R145: while a command is latched and its completion is due, a step decodes LCMD and runs the
matching body. When it is due is the model's form of LATENCY (assumption log 5). -/
def Obligations.StepRunsTheLatchedCommand : Prop :=
  ∀ (s : State) (c : Latched), s.Legal → s.lcmd = some c → (s.latency = 0 ∨ s.inputs = []) →
    step s = exec (decode c.word) s

/-- spec/43_host_access.md R140 and spec/20_memory.md R70: otherwise a step applies the host's next input, and uses up
one host step of the latency. With no command running and no input, nothing changes (spec/60_exceptions.md R179). The latency
count and the idle step are the model's (assumption logs 5 and 15). -/
def Obligations.StepTakesTheNextInput : Prop :=
  ∀ (s : State), s.Legal →
    (∀ i rest, s.inputs = i :: rest → (s.lcmd = none ∨ s.latency ≠ 0) →
      step s = .next (applyInput i { s with inputs := rest, latency := s.latency - 1 })) ∧
    (s.lcmd = none → s.inputs = [] → step s = .next s)

/-- A placed command word is the next one to run (the model's own launch, assumption log 6). -/
def Obligations.FetchedWordRunsNext : Prop :=
  ∀ (s : State) (nbits w : Nat), s.Legal →
    step (s.withFetchWord nbits w) = exec (decode (BitVec.ofNat 32 (w % 2 ^ nbits))) (s.withFetchWord nbits w) ∧
    ∀ i, decodeTableWord nbits w = some i → step (s.withFetchWord nbits w) = exec i (s.withFetchWord nbits w)

/-- spec/10_state.md and spec/43_host_access.md: the invariant is kept by every step. The canonical form is
the model's (assumption log 1). -/
def Obligations.StepKeepsInvariant : Prop :=
  ∀ s t : State, s.Inv → step s = .next t → t.Inv

/-- The reset state meets the invariant. Its open parameters are the model's choice (assumption log 2). -/
def Obligations.ResetMeetsInvariant : Prop := State.reset.Inv

/-- spec/60_exceptions.md R160 (the block raises no trap): with legal parameters every step answers a next state, and
the parameters stay. -/
def Obligations.EveryStepGoesOn : Prop :=
  ∀ s : State, s.Legal → ∃ t, step s = .next t ∧ t.cfg = s.cfg

/-- R52: RUN is left only by the completion or by a reset, and entered only by an accept. -/
def Obligations.PhaseChanges : Prop :=
  ∀ s t : State, step s = .next t →
    (s.phase = .run → t.phase = .idle → s.Completes ∨ ∃ i, s.Takes i ∧ i.isReset = true) ∧
    (s.phase = .idle → t.phase = .run → ∃ w, s.Takes (Input.writes 0x010 w)) ∧
    (s.Completes → t.phase = .idle ∧ ∃ c, s.lcmd = some c ∧ step s = exec (decode c.word) s)

/-- R73: while a command runs, its word and operands stay as they were at its accept. -/
def Obligations.RunningCommandInputsStay : Prop :=
  ∀ s t : State, step s = .next t → s.busy = true → t.busy = true →
    t.lcmd = s.lcmd ∧ operandLen t = operandLen s ∧ (∀ i, operandEntry t i = operandEntry s i) ∧
    operandInt t = operandInt s

/-- spec/70_reset_and_hazards.md R195: a running command commits nothing before its completion. -/
def Obligations.NothingCommittedWhileRunning : Prop :=
  ∀ s t : State, step s = .next t → s.busy = true → t.busy = true →
    ResultsUnchanged s t ∧ t.errIdx = s.errIdx ∧ t.ecode = s.ecode ∧ t.cmd = s.cmd ∧ t.ilen = s.ilen ∧
    (∀ i, t.ibufEntry i = s.ibufEntry i) ∧ (t.done = true → s.done = true)

/-- spec/10_state.md R41 and R42: an entry of IBUF changes only by an IBUF word write while BUSY = 0, and an entry of
OBUF only by the completion of CONV or ENCI, below the new OLEN; hard reset redraws both. -/
def Obligations.BufferWriters : Prop :=
  ∀ s t : State, s.Legal → step s = .next t → ¬ s.Takes .hardReset →
    (∀ i, t.ibufEntry i ≠ s.ibufEntry i →
      s.busy = false ∧ ∃ (off : Offset) (v : Word), s.Takes (Input.writes off v) ∧
        off.toNat = 0x1000 + 4 * (i / 4) ∧ i < s.cfg.ibufDepth) ∧
    (∀ i, t.obufEntry i ≠ s.obufEntry i →
      s.Completes ∧ t.ecode = .noError ∧ i < t.olen.toNat ∧
        ∃ c, s.lcmd = some c ∧ ((∃ sr tr z, decode c.word = .conv sr tr z) ∨ decode c.word = .enci))

/-- spec/10_state.md R37, R38, R39: which events may change OLEN, ZRUN and NVAL. -/
def Obligations.ResultRegisterWriters : Prop :=
  ∀ s t : State, step s = .next t → (∀ i, s.Takes i → i.isReset = false) →
    (t.olen ≠ s.olen → s.Completes ∧ t.ecode = .noError ∧
      ∃ c, s.lcmd = some c ∧ ((∃ sr tr z, decode c.word = .conv sr tr z) ∨ decode c.word = .enci)) ∧
    (t.zrun ≠ s.zrun → s.Completes ∧ t.ecode = .noError) ∧
    (t.nval ≠ s.nval →
      (s.Completes ∧ t.ecode = .noError ∧ ∃ c, s.lcmd = some c ∧ decode c.word = .deci) ∨
      (s.busy = false ∧ ∃ v, s.Takes (Input.writes 0x020 v) ∨ s.Takes (Input.writes 0x024 v)))

/-- R31: ERR is set by every completion with an error code and cleared only by a write of 1 to STATUS bit 2 or by
reset. -/
def Obligations.ErrIsSticky : Prop :=
  ∀ s t : State, step s = .next t →
    (s.Completes → t.ecode ≠ .noError → t.err = true) ∧
    (s.Completes → t.ecode = .noError → t.err = s.err) ∧
    (s.err = true → t.err = false →
      ∃ i, s.Takes i ∧ (i.isReset = true ∨ ∃ v, i = Input.writes 0x00C v ∧ v.getLsbD 2 = true)) ∧
    (s.err = false → t.err = true → s.Completes ∧ t.ecode ≠ .noError)

/-- R32: OVR is set when a write is dropped because BUSY = 1, and cleared only by a write of 1 to STATUS bit 3 or by
reset. -/
def Obligations.OvrIsSticky : Prop :=
  ∀ s t : State, s.Legal → step s = .next t →
    (s.ovr = false → t.ovr = true → s.busy = true ∧ ∃ off v, s.Takes (Input.writes off v) ∧ off.toNat % 4 = 0 ∧
      (off ∈ [(0x010 : Offset), 0x014, 0x020, 0x024] ∨
        (0x1000 ≤ off.toNat ∧ off.toNat < 0x1000 + s.cfg.ibufDepth))) ∧
    (s.busy = true → (∃ off v, s.Takes (Input.writes off v) ∧ off.toNat % 4 = 0 ∧
      (off ∈ [(0x010 : Offset), 0x014, 0x020, 0x024] ∨
        (0x1000 ≤ off.toNat ∧ off.toNat < 0x1000 + s.cfg.ibufDepth))) → t.ovr = true) ∧
    (s.ovr = true → t.ovr = false →
      ∃ i, s.Takes i ∧ (i.isReset = true ∨ ∃ v, i = Input.writes 0x00C v ∧ v.getLsbD 3 = true))

/-- spec/60_exceptions.md R172: `irq` is the level IE AND DONE, what can raise it, and what clears it. That it is driven
on IRQ_LINE and on no other input is the model's reading of the OPEN wiring (DEDUCED, assumption log 18). -/
def Obligations.InterruptLevel : Prop :=
  ∀ s t : State, step s = .next t →
    let clears (i : Input) : Prop := i.isReset = true ∨ (∃ v, i = Input.writes 0x00C v ∧ v.getLsbD 1 = true) ∨
      (∃ v, i = Input.writes 0x008 v ∧ v.getLsbD 0 = false) ∨ (s.busy = false ∧ ∃ w, i = Input.writes 0x010 w)
    (s.irq = true ↔ s.ie = true ∧ s.done = true) ∧
    (∀ line, s.irqOn line = true ↔ line = s.cfg.irqLine ∧ s.irq = true) ∧
    (s.Completes → t.irq = s.ie) ∧
    (s.irq = false → t.irq = true →
      s.Completes ∨ ∃ v, s.Takes (Input.writes 0x008 v) ∧ v.getLsbD 0 = true) ∧
    (s.irq = true → t.irq = false → ∃ i, s.Takes i ∧ clears i) ∧
    (∀ i, s.Takes i → clears i → t.irq = false)

/-- spec/43_host_access.md R145 and spec/70_reset_and_hazards.md R200: unless the outside world resets the block, a
running command completes after at most its latency in host steps, and completes as its body does on the inputs it was
accepted with, whatever the host did meanwhile. The latency count is the model's (assumption log 5). -/
def Obligations.RunningCommandCompletes : Prop :=
  ∀ (s : State) (c : Latched), s.Legal → s.lcmd = some c → (∀ i ∈ s.inputs, i.isReset = false) →
    ∃ k u, k ≤ s.latency ∧ Sys2Proof.core.run k s = .next u ∧
      u.lcmd = some c ∧ u.Completes ∧ step u = exec (decode c.word) u ∧
      operandLen u = operandLen s ∧ (∀ i, operandEntry u i = operandEntry s i) ∧ operandInt u = operandInt s ∧
      ResultsUnchanged s u

/-- spec/60_exceptions.md R173: a completion and a host access in both orders, for a CMD write, a write of 1 to DONE, and
a soft reset. The form of the order is the model's: the running command's latency, where 0 puts the completion first
(DESIGN CHOICE, assumption log 5). -/
def Obligations.RacesInBothOrders : Prop :=
  ∀ (s : State) (c : Latched) (v : Word) (rest : List Input), s.Legal → s.lcmd = some c →
    (s.inputs = Input.writes 0x010 v :: rest →
      (s.latency = 0 → ∃ t u, step s = .next t ∧ t.done = true ∧ step t = .next u ∧
        u.cmd = v ∧ u.busy = true ∧ u.done = false ∧ u.ovr = s.ovr) ∧
      (s.latency ≠ 0 → ∃ t, step s = .next t ∧ t.lcmd = some c ∧ t.cmd = s.cmd ∧ t.ovr = true)) ∧
    (s.inputs = Input.writes 0x00C v :: rest → v.getLsbD 1 = true →
      (s.latency = 0 → ∃ t u, step s = .next t ∧ t.done = true ∧ step t = .next u ∧ u.done = false) ∧
      (s.latency = 1 → ∃ t u, step s = .next t ∧ t.lcmd = some c ∧ step t = .next u ∧ u.done = true)) ∧
    (s.inputs = Input.writes 0x008 v :: rest → v.getLsbD 1 = true →
      (s.latency = 0 → ∃ t u, exec (decode c.word) s = .next t ∧ step s = .next t ∧ step t = .next u ∧
        (∀ i, u.obufEntry i = t.obufEntry i) ∧ u.statusWord = 0 ∧ u.olen = 0) ∧
      (s.latency ≠ 0 → ∃ t, step s = .next t ∧ t.lcmd = none ∧ t.statusWord = 0 ∧ t.olen = 0 ∧
        ∀ i, t.obufEntry i = s.obufEntry i))

/-- spec/30_encoding.md R90: a round of POLL is one read with no effect on the block; the host reads again unless
`(t AND mask) = val` (assumption log 12). -/
def Obligations.PollRound : Prop :=
  ∀ (s : State) (off : Offset) (mask val : Word), off.toNat % 4 = 0 →
    ∃ v : Word, hostAccess (rd off) s = { s with resp := .data v } ∧
      (v &&& mask = val → applyInput (.poll off mask val) s = { s with resp := .data v }) ∧
      (v &&& mask ≠ val → applyInput (.poll off mask val) s =
        { s with resp := .data v, inputs := .poll off mask val :: s.inputs })
end

