-- ==== Sys2Proof/Laws/State.lean ====
section
/-! SUPPORT. One lemma per field per named update of the state, so that no proof unfolds a record update. -/

namespace Sys2Proof.Laws

open Sys2Proof Sys2Proof.Machine

/-! ### storeDigits -/

@[simp] theorem storeDigits_cfg (out : List Nat) (s : State) : (storeDigits out s).cfg = s.cfg := rfl
@[simp] theorem storeDigits_ie (out : List Nat) (s : State) : (storeDigits out s).ie = s.ie := rfl
@[simp] theorem storeDigits_done (out : List Nat) (s : State) : (storeDigits out s).done = s.done := rfl
@[simp] theorem storeDigits_err (out : List Nat) (s : State) : (storeDigits out s).err = s.err := rfl
@[simp] theorem storeDigits_ovr (out : List Nat) (s : State) : (storeDigits out s).ovr = s.ovr := rfl
@[simp] theorem storeDigits_ecode (out : List Nat) (s : State) : (storeDigits out s).ecode = s.ecode := rfl
@[simp] theorem storeDigits_cmd (out : List Nat) (s : State) : (storeDigits out s).cmd = s.cmd := rfl
@[simp] theorem storeDigits_ilen (out : List Nat) (s : State) : (storeDigits out s).ilen = s.ilen := rfl
@[simp] theorem storeDigits_olen (out : List Nat) (s : State) : (storeDigits out s).olen = s.olen := rfl
@[simp] theorem storeDigits_zrun (out : List Nat) (s : State) : (storeDigits out s).zrun = s.zrun := rfl
@[simp] theorem storeDigits_nvalLo (out : List Nat) (s : State) : (storeDigits out s).nvalLo = s.nvalLo := rfl
@[simp] theorem storeDigits_nvalHi (out : List Nat) (s : State) : (storeDigits out s).nvalHi = s.nvalHi := rfl
@[simp] theorem storeDigits_errIdx (out : List Nat) (s : State) : (storeDigits out s).errIdx = s.errIdx := rfl
@[simp] theorem storeDigits_ibuf (out : List Nat) (s : State) : (storeDigits out s).ibuf = s.ibuf := rfl
@[simp] theorem storeDigits_obuf (out : List Nat) (s : State) :
    (storeDigits out s).obuf = Memory.writeList s.obuf 0 (out.map (BitVec.ofNat 8)) := rfl
@[simp] theorem storeDigits_lcmd (out : List Nat) (s : State) : (storeDigits out s).lcmd = s.lcmd := rfl
@[simp] theorem storeDigits_accDraw (out : List Nat) (s : State) : (storeDigits out s).accDraw = s.accDraw := rfl
@[simp] theorem storeDigits_hardResets (out : List Nat) (s : State) :
    (storeDigits out s).hardResets = s.hardResets := rfl
@[simp] theorem storeDigits_latency (out : List Nat) (s : State) : (storeDigits out s).latency = s.latency := rfl
@[simp] theorem storeDigits_latencies (out : List Nat) (s : State) :
    (storeDigits out s).latencies = s.latencies := rfl
@[simp] theorem storeDigits_latencyDraws (out : List Nat) (s : State) :
    (storeDigits out s).latencyDraws = s.latencyDraws := rfl
@[simp] theorem storeDigits_inputs (out : List Nat) (s : State) : (storeDigits out s).inputs = s.inputs := rfl
@[simp] theorem storeDigits_resp (out : List Nat) (s : State) : (storeDigits out s).resp = s.resp := rfl

/-! ### storeOutput -/

@[simp] theorem storeOutput_cfg (out : List Nat) (k : Nat) (s : State) : (storeOutput out k s).cfg = s.cfg := rfl
@[simp] theorem storeOutput_ie (out : List Nat) (k : Nat) (s : State) : (storeOutput out k s).ie = s.ie := rfl
@[simp] theorem storeOutput_done (out : List Nat) (k : Nat) (s : State) : (storeOutput out k s).done = s.done := rfl
@[simp] theorem storeOutput_err (out : List Nat) (k : Nat) (s : State) : (storeOutput out k s).err = s.err := rfl
@[simp] theorem storeOutput_ovr (out : List Nat) (k : Nat) (s : State) : (storeOutput out k s).ovr = s.ovr := rfl
@[simp] theorem storeOutput_ecode (out : List Nat) (k : Nat) (s : State) :
    (storeOutput out k s).ecode = s.ecode := rfl
@[simp] theorem storeOutput_cmd (out : List Nat) (k : Nat) (s : State) : (storeOutput out k s).cmd = s.cmd := rfl
@[simp] theorem storeOutput_ilen (out : List Nat) (k : Nat) (s : State) : (storeOutput out k s).ilen = s.ilen := rfl
@[simp] theorem storeOutput_olen (out : List Nat) (k : Nat) (s : State) :
    (storeOutput out k s).olen = BitVec.ofNat 16 out.length := rfl
@[simp] theorem storeOutput_zrun (out : List Nat) (k : Nat) (s : State) :
    (storeOutput out k s).zrun = BitVec.ofNat 16 k := rfl
@[simp] theorem storeOutput_nvalLo (out : List Nat) (k : Nat) (s : State) :
    (storeOutput out k s).nvalLo = s.nvalLo := rfl
@[simp] theorem storeOutput_nvalHi (out : List Nat) (k : Nat) (s : State) :
    (storeOutput out k s).nvalHi = s.nvalHi := rfl
@[simp] theorem storeOutput_errIdx (out : List Nat) (k : Nat) (s : State) :
    (storeOutput out k s).errIdx = s.errIdx := rfl
@[simp] theorem storeOutput_ibuf (out : List Nat) (k : Nat) (s : State) : (storeOutput out k s).ibuf = s.ibuf := rfl
@[simp] theorem storeOutput_obuf (out : List Nat) (k : Nat) (s : State) :
    (storeOutput out k s).obuf = Memory.writeList s.obuf 0 (out.map (BitVec.ofNat 8)) := rfl
@[simp] theorem storeOutput_lcmd (out : List Nat) (k : Nat) (s : State) : (storeOutput out k s).lcmd = s.lcmd := rfl
@[simp] theorem storeOutput_accDraw (out : List Nat) (k : Nat) (s : State) :
    (storeOutput out k s).accDraw = s.accDraw := rfl
@[simp] theorem storeOutput_hardResets (out : List Nat) (k : Nat) (s : State) :
    (storeOutput out k s).hardResets = s.hardResets := rfl
@[simp] theorem storeOutput_latency (out : List Nat) (k : Nat) (s : State) :
    (storeOutput out k s).latency = s.latency := rfl
@[simp] theorem storeOutput_latencies (out : List Nat) (k : Nat) (s : State) :
    (storeOutput out k s).latencies = s.latencies := rfl
@[simp] theorem storeOutput_latencyDraws (out : List Nat) (k : Nat) (s : State) :
    (storeOutput out k s).latencyDraws = s.latencyDraws := rfl
@[simp] theorem storeOutput_inputs (out : List Nat) (k : Nat) (s : State) :
    (storeOutput out k s).inputs = s.inputs := rfl
@[simp] theorem storeOutput_resp (out : List Nat) (k : Nat) (s : State) : (storeOutput out k s).resp = s.resp := rfl

/-! ### storeInteger -/

@[simp] theorem storeInteger_cfg (N k : Nat) (s : State) : (storeInteger N k s).cfg = s.cfg := rfl
@[simp] theorem storeInteger_ie (N k : Nat) (s : State) : (storeInteger N k s).ie = s.ie := rfl
@[simp] theorem storeInteger_done (N k : Nat) (s : State) : (storeInteger N k s).done = s.done := rfl
@[simp] theorem storeInteger_err (N k : Nat) (s : State) : (storeInteger N k s).err = s.err := rfl
@[simp] theorem storeInteger_ovr (N k : Nat) (s : State) : (storeInteger N k s).ovr = s.ovr := rfl
@[simp] theorem storeInteger_ecode (N k : Nat) (s : State) : (storeInteger N k s).ecode = s.ecode := rfl
@[simp] theorem storeInteger_cmd (N k : Nat) (s : State) : (storeInteger N k s).cmd = s.cmd := rfl
@[simp] theorem storeInteger_ilen (N k : Nat) (s : State) : (storeInteger N k s).ilen = s.ilen := rfl
@[simp] theorem storeInteger_olen (N k : Nat) (s : State) : (storeInteger N k s).olen = s.olen := rfl
@[simp] theorem storeInteger_zrun (N k : Nat) (s : State) : (storeInteger N k s).zrun = BitVec.ofNat 16 k := rfl
@[simp] theorem storeInteger_nvalLo (N k : Nat) (s : State) : (storeInteger N k s).nvalLo = BitVec.ofNat 32 N := rfl
@[simp] theorem storeInteger_nvalHi (N k : Nat) (s : State) :
    (storeInteger N k s).nvalHi = BitVec.ofNat 32 (N / 2 ^ 32) := rfl
@[simp] theorem storeInteger_errIdx (N k : Nat) (s : State) : (storeInteger N k s).errIdx = s.errIdx := rfl
@[simp] theorem storeInteger_ibuf (N k : Nat) (s : State) : (storeInteger N k s).ibuf = s.ibuf := rfl
@[simp] theorem storeInteger_obuf (N k : Nat) (s : State) : (storeInteger N k s).obuf = s.obuf := rfl
@[simp] theorem storeInteger_lcmd (N k : Nat) (s : State) : (storeInteger N k s).lcmd = s.lcmd := rfl
@[simp] theorem storeInteger_accDraw (N k : Nat) (s : State) : (storeInteger N k s).accDraw = s.accDraw := rfl
@[simp] theorem storeInteger_hardResets (N k : Nat) (s : State) :
    (storeInteger N k s).hardResets = s.hardResets := rfl
@[simp] theorem storeInteger_latency (N k : Nat) (s : State) : (storeInteger N k s).latency = s.latency := rfl
@[simp] theorem storeInteger_latencies (N k : Nat) (s : State) : (storeInteger N k s).latencies = s.latencies := rfl
@[simp] theorem storeInteger_latencyDraws (N k : Nat) (s : State) :
    (storeInteger N k s).latencyDraws = s.latencyDraws := rfl
@[simp] theorem storeInteger_inputs (N k : Nat) (s : State) : (storeInteger N k s).inputs = s.inputs := rfl
@[simp] theorem storeInteger_resp (N k : Nat) (s : State) : (storeInteger N k s).resp = s.resp := rfl

/-! ### storeIbufWord -/

@[simp] theorem storeIbufWord_cfg (w : Nat) (v : Word) (s : State) : (storeIbufWord w v s).cfg = s.cfg := rfl
@[simp] theorem storeIbufWord_ie (w : Nat) (v : Word) (s : State) : (storeIbufWord w v s).ie = s.ie := rfl
@[simp] theorem storeIbufWord_done (w : Nat) (v : Word) (s : State) : (storeIbufWord w v s).done = s.done := rfl
@[simp] theorem storeIbufWord_err (w : Nat) (v : Word) (s : State) : (storeIbufWord w v s).err = s.err := rfl
@[simp] theorem storeIbufWord_ovr (w : Nat) (v : Word) (s : State) : (storeIbufWord w v s).ovr = s.ovr := rfl
@[simp] theorem storeIbufWord_ecode (w : Nat) (v : Word) (s : State) : (storeIbufWord w v s).ecode = s.ecode := rfl
@[simp] theorem storeIbufWord_cmd (w : Nat) (v : Word) (s : State) : (storeIbufWord w v s).cmd = s.cmd := rfl
@[simp] theorem storeIbufWord_ilen (w : Nat) (v : Word) (s : State) : (storeIbufWord w v s).ilen = s.ilen := rfl
@[simp] theorem storeIbufWord_olen (w : Nat) (v : Word) (s : State) : (storeIbufWord w v s).olen = s.olen := rfl
@[simp] theorem storeIbufWord_zrun (w : Nat) (v : Word) (s : State) : (storeIbufWord w v s).zrun = s.zrun := rfl
@[simp] theorem storeIbufWord_nvalLo (w : Nat) (v : Word) (s : State) : (storeIbufWord w v s).nvalLo = s.nvalLo := rfl
@[simp] theorem storeIbufWord_nvalHi (w : Nat) (v : Word) (s : State) : (storeIbufWord w v s).nvalHi = s.nvalHi := rfl
@[simp] theorem storeIbufWord_errIdx (w : Nat) (v : Word) (s : State) : (storeIbufWord w v s).errIdx = s.errIdx := rfl
@[simp] theorem storeIbufWord_ibuf (w : Nat) (v : Word) (s : State) :
    (storeIbufWord w v s).ibuf =
      Memory.writeList s.ibuf (4 * w) [byteOfWord v 0, byteOfWord v 1, byteOfWord v 2, byteOfWord v 3] :=
  rfl
@[simp] theorem storeIbufWord_obuf (w : Nat) (v : Word) (s : State) : (storeIbufWord w v s).obuf = s.obuf := rfl
@[simp] theorem storeIbufWord_lcmd (w : Nat) (v : Word) (s : State) : (storeIbufWord w v s).lcmd = s.lcmd := rfl
@[simp] theorem storeIbufWord_accDraw (w : Nat) (v : Word) (s : State) :
    (storeIbufWord w v s).accDraw = s.accDraw := rfl
@[simp] theorem storeIbufWord_hardResets (w : Nat) (v : Word) (s : State) :
    (storeIbufWord w v s).hardResets = s.hardResets := rfl
@[simp] theorem storeIbufWord_latency (w : Nat) (v : Word) (s : State) :
    (storeIbufWord w v s).latency = s.latency := rfl
@[simp] theorem storeIbufWord_latencies (w : Nat) (v : Word) (s : State) :
    (storeIbufWord w v s).latencies = s.latencies := rfl
@[simp] theorem storeIbufWord_latencyDraws (w : Nat) (v : Word) (s : State) :
    (storeIbufWord w v s).latencyDraws = s.latencyDraws := rfl
@[simp] theorem storeIbufWord_inputs (w : Nat) (v : Word) (s : State) : (storeIbufWord w v s).inputs = s.inputs := rfl
@[simp] theorem storeIbufWord_resp (w : Nat) (v : Word) (s : State) : (storeIbufWord w v s).resp = s.resp := rfl

/-! ### respond -/

@[simp] theorem respond_cfg (r : BusResponse) (s : State) : (respond r s).cfg = s.cfg := rfl
@[simp] theorem respond_ie (r : BusResponse) (s : State) : (respond r s).ie = s.ie := rfl
@[simp] theorem respond_done (r : BusResponse) (s : State) : (respond r s).done = s.done := rfl
@[simp] theorem respond_err (r : BusResponse) (s : State) : (respond r s).err = s.err := rfl
@[simp] theorem respond_ovr (r : BusResponse) (s : State) : (respond r s).ovr = s.ovr := rfl
@[simp] theorem respond_ecode (r : BusResponse) (s : State) : (respond r s).ecode = s.ecode := rfl
@[simp] theorem respond_cmd (r : BusResponse) (s : State) : (respond r s).cmd = s.cmd := rfl
@[simp] theorem respond_ilen (r : BusResponse) (s : State) : (respond r s).ilen = s.ilen := rfl
@[simp] theorem respond_olen (r : BusResponse) (s : State) : (respond r s).olen = s.olen := rfl
@[simp] theorem respond_zrun (r : BusResponse) (s : State) : (respond r s).zrun = s.zrun := rfl
@[simp] theorem respond_nvalLo (r : BusResponse) (s : State) : (respond r s).nvalLo = s.nvalLo := rfl
@[simp] theorem respond_nvalHi (r : BusResponse) (s : State) : (respond r s).nvalHi = s.nvalHi := rfl
@[simp] theorem respond_errIdx (r : BusResponse) (s : State) : (respond r s).errIdx = s.errIdx := rfl
@[simp] theorem respond_ibuf (r : BusResponse) (s : State) : (respond r s).ibuf = s.ibuf := rfl
@[simp] theorem respond_obuf (r : BusResponse) (s : State) : (respond r s).obuf = s.obuf := rfl
@[simp] theorem respond_lcmd (r : BusResponse) (s : State) : (respond r s).lcmd = s.lcmd := rfl
@[simp] theorem respond_accDraw (r : BusResponse) (s : State) : (respond r s).accDraw = s.accDraw := rfl
@[simp] theorem respond_hardResets (r : BusResponse) (s : State) : (respond r s).hardResets = s.hardResets := rfl
@[simp] theorem respond_latency (r : BusResponse) (s : State) : (respond r s).latency = s.latency := rfl
@[simp] theorem respond_latencies (r : BusResponse) (s : State) : (respond r s).latencies = s.latencies := rfl
@[simp] theorem respond_latencyDraws (r : BusResponse) (s : State) :
    (respond r s).latencyDraws = s.latencyDraws := rfl
@[simp] theorem respond_inputs (r : BusResponse) (s : State) : (respond r s).inputs = s.inputs := rfl
@[simp] theorem respond_resp (r : BusResponse) (s : State) : (respond r s).resp = r := rfl

/-! ### setOverrun -/

@[simp] theorem setOverrun_cfg (s : State) : (setOverrun s).cfg = s.cfg := rfl
@[simp] theorem setOverrun_ie (s : State) : (setOverrun s).ie = s.ie := rfl
@[simp] theorem setOverrun_done (s : State) : (setOverrun s).done = s.done := rfl
@[simp] theorem setOverrun_err (s : State) : (setOverrun s).err = s.err := rfl
@[simp] theorem setOverrun_ovr (s : State) : (setOverrun s).ovr = true := rfl
@[simp] theorem setOverrun_ecode (s : State) : (setOverrun s).ecode = s.ecode := rfl
@[simp] theorem setOverrun_cmd (s : State) : (setOverrun s).cmd = s.cmd := rfl
@[simp] theorem setOverrun_ilen (s : State) : (setOverrun s).ilen = s.ilen := rfl
@[simp] theorem setOverrun_olen (s : State) : (setOverrun s).olen = s.olen := rfl
@[simp] theorem setOverrun_zrun (s : State) : (setOverrun s).zrun = s.zrun := rfl
@[simp] theorem setOverrun_nvalLo (s : State) : (setOverrun s).nvalLo = s.nvalLo := rfl
@[simp] theorem setOverrun_nvalHi (s : State) : (setOverrun s).nvalHi = s.nvalHi := rfl
@[simp] theorem setOverrun_errIdx (s : State) : (setOverrun s).errIdx = s.errIdx := rfl
@[simp] theorem setOverrun_ibuf (s : State) : (setOverrun s).ibuf = s.ibuf := rfl
@[simp] theorem setOverrun_obuf (s : State) : (setOverrun s).obuf = s.obuf := rfl
@[simp] theorem setOverrun_lcmd (s : State) : (setOverrun s).lcmd = s.lcmd := rfl
@[simp] theorem setOverrun_accDraw (s : State) : (setOverrun s).accDraw = s.accDraw := rfl
@[simp] theorem setOverrun_hardResets (s : State) : (setOverrun s).hardResets = s.hardResets := rfl
@[simp] theorem setOverrun_latency (s : State) : (setOverrun s).latency = s.latency := rfl
@[simp] theorem setOverrun_latencies (s : State) : (setOverrun s).latencies = s.latencies := rfl
@[simp] theorem setOverrun_latencyDraws (s : State) : (setOverrun s).latencyDraws = s.latencyDraws := rfl
@[simp] theorem setOverrun_inputs (s : State) : (setOverrun s).inputs = s.inputs := rfl
@[simp] theorem setOverrun_resp (s : State) : (setOverrun s).resp = s.resp := rfl

/-! ### endCommand -/

@[simp] theorem endCommand_cfg (s : State) : (endCommand s).cfg = s.cfg := rfl
@[simp] theorem endCommand_ie (s : State) : (endCommand s).ie = s.ie := rfl
@[simp] theorem endCommand_done (s : State) : (endCommand s).done = true := rfl
@[simp] theorem endCommand_err (s : State) : (endCommand s).err = s.err := rfl
@[simp] theorem endCommand_ovr (s : State) : (endCommand s).ovr = s.ovr := rfl
@[simp] theorem endCommand_ecode (s : State) : (endCommand s).ecode = s.ecode := rfl
@[simp] theorem endCommand_cmd (s : State) : (endCommand s).cmd = s.cmd := rfl
@[simp] theorem endCommand_ilen (s : State) : (endCommand s).ilen = s.ilen := rfl
@[simp] theorem endCommand_olen (s : State) : (endCommand s).olen = s.olen := rfl
@[simp] theorem endCommand_zrun (s : State) : (endCommand s).zrun = s.zrun := rfl
@[simp] theorem endCommand_nvalLo (s : State) : (endCommand s).nvalLo = s.nvalLo := rfl
@[simp] theorem endCommand_nvalHi (s : State) : (endCommand s).nvalHi = s.nvalHi := rfl
@[simp] theorem endCommand_errIdx (s : State) : (endCommand s).errIdx = s.errIdx := rfl
@[simp] theorem endCommand_ibuf (s : State) : (endCommand s).ibuf = s.ibuf := rfl
@[simp] theorem endCommand_obuf (s : State) : (endCommand s).obuf = s.obuf := rfl
@[simp] theorem endCommand_lcmd (s : State) : (endCommand s).lcmd = none := rfl
@[simp] theorem endCommand_accDraw (s : State) : (endCommand s).accDraw = s.accDraw + 1 := rfl
@[simp] theorem endCommand_hardResets (s : State) : (endCommand s).hardResets = s.hardResets := rfl
@[simp] theorem endCommand_latency (s : State) : (endCommand s).latency = 0 := rfl
@[simp] theorem endCommand_latencies (s : State) : (endCommand s).latencies = s.latencies := rfl
@[simp] theorem endCommand_latencyDraws (s : State) : (endCommand s).latencyDraws = s.latencyDraws := rfl
@[simp] theorem endCommand_inputs (s : State) : (endCommand s).inputs = s.inputs := rfl
@[simp] theorem endCommand_resp (s : State) : (endCommand s).resp = s.resp := rfl

/-! ### completeOk -/

@[simp] theorem completeOk_cfg (s : State) : (completeOk s).cfg = s.cfg := rfl
@[simp] theorem completeOk_ie (s : State) : (completeOk s).ie = s.ie := rfl
@[simp] theorem completeOk_done (s : State) : (completeOk s).done = true := rfl
@[simp] theorem completeOk_err (s : State) : (completeOk s).err = s.err := rfl
@[simp] theorem completeOk_ovr (s : State) : (completeOk s).ovr = s.ovr := rfl
@[simp] theorem completeOk_ecode (s : State) : (completeOk s).ecode = .noError := rfl
@[simp] theorem completeOk_cmd (s : State) : (completeOk s).cmd = s.cmd := rfl
@[simp] theorem completeOk_ilen (s : State) : (completeOk s).ilen = s.ilen := rfl
@[simp] theorem completeOk_olen (s : State) : (completeOk s).olen = s.olen := rfl
@[simp] theorem completeOk_zrun (s : State) : (completeOk s).zrun = s.zrun := rfl
@[simp] theorem completeOk_nvalLo (s : State) : (completeOk s).nvalLo = s.nvalLo := rfl
@[simp] theorem completeOk_nvalHi (s : State) : (completeOk s).nvalHi = s.nvalHi := rfl
@[simp] theorem completeOk_errIdx (s : State) : (completeOk s).errIdx = 0 := rfl
@[simp] theorem completeOk_ibuf (s : State) : (completeOk s).ibuf = s.ibuf := rfl
@[simp] theorem completeOk_obuf (s : State) : (completeOk s).obuf = s.obuf := rfl
@[simp] theorem completeOk_lcmd (s : State) : (completeOk s).lcmd = none := rfl
@[simp] theorem completeOk_accDraw (s : State) : (completeOk s).accDraw = s.accDraw + 1 := rfl
@[simp] theorem completeOk_hardResets (s : State) : (completeOk s).hardResets = s.hardResets := rfl
@[simp] theorem completeOk_latency (s : State) : (completeOk s).latency = 0 := rfl
@[simp] theorem completeOk_latencies (s : State) : (completeOk s).latencies = s.latencies := rfl
@[simp] theorem completeOk_latencyDraws (s : State) : (completeOk s).latencyDraws = s.latencyDraws := rfl
@[simp] theorem completeOk_inputs (s : State) : (completeOk s).inputs = s.inputs := rfl
@[simp] theorem completeOk_resp (s : State) : (completeOk s).resp = s.resp := rfl

/-! ### raiseError -/

@[simp] theorem raiseError_cfg (e : CmdError) (s : State) : (raiseError e s).cfg = s.cfg := rfl
@[simp] theorem raiseError_ie (e : CmdError) (s : State) : (raiseError e s).ie = s.ie := rfl
@[simp] theorem raiseError_done (e : CmdError) (s : State) : (raiseError e s).done = true := rfl
@[simp] theorem raiseError_err (e : CmdError) (s : State) : (raiseError e s).err = true := rfl
@[simp] theorem raiseError_ovr (e : CmdError) (s : State) : (raiseError e s).ovr = s.ovr := rfl
@[simp] theorem raiseError_ecode (e : CmdError) (s : State) : (raiseError e s).ecode = e.code := rfl
@[simp] theorem raiseError_cmd (e : CmdError) (s : State) : (raiseError e s).cmd = s.cmd := rfl
@[simp] theorem raiseError_ilen (e : CmdError) (s : State) : (raiseError e s).ilen = s.ilen := rfl
@[simp] theorem raiseError_olen (e : CmdError) (s : State) : (raiseError e s).olen = s.olen := rfl
@[simp] theorem raiseError_zrun (e : CmdError) (s : State) : (raiseError e s).zrun = s.zrun := rfl
@[simp] theorem raiseError_nvalLo (e : CmdError) (s : State) : (raiseError e s).nvalLo = s.nvalLo := rfl
@[simp] theorem raiseError_nvalHi (e : CmdError) (s : State) : (raiseError e s).nvalHi = s.nvalHi := rfl
@[simp] theorem raiseError_errIdx (e : CmdError) (s : State) :
    (raiseError e s).errIdx = if e.code = .digitRange then BitVec.ofNat 16 e.idx else 0 := rfl
@[simp] theorem raiseError_ibuf (e : CmdError) (s : State) : (raiseError e s).ibuf = s.ibuf := rfl
@[simp] theorem raiseError_obuf (e : CmdError) (s : State) : (raiseError e s).obuf = s.obuf := rfl
@[simp] theorem raiseError_lcmd (e : CmdError) (s : State) : (raiseError e s).lcmd = none := rfl
@[simp] theorem raiseError_accDraw (e : CmdError) (s : State) : (raiseError e s).accDraw = s.accDraw + 1 := rfl
@[simp] theorem raiseError_hardResets (e : CmdError) (s : State) : (raiseError e s).hardResets = s.hardResets := rfl
@[simp] theorem raiseError_latency (e : CmdError) (s : State) : (raiseError e s).latency = 0 := rfl
@[simp] theorem raiseError_latencies (e : CmdError) (s : State) : (raiseError e s).latencies = s.latencies := rfl
@[simp] theorem raiseError_latencyDraws (e : CmdError) (s : State) :
    (raiseError e s).latencyDraws = s.latencyDraws := rfl
@[simp] theorem raiseError_inputs (e : CmdError) (s : State) : (raiseError e s).inputs = s.inputs := rfl
@[simp] theorem raiseError_resp (e : CmdError) (s : State) : (raiseError e s).resp = s.resp := rfl

/-! ### writeCtrl -/

@[simp] theorem writeCtrl_cfg (v : Word) (s : State) :
    (writeCtrl v s).cfg = s.cfg := by unfold writeCtrl; cases v.getLsbD 1 <;> rfl
@[simp] theorem writeCtrl_ie (v : Word) (s : State) :
    (writeCtrl v s).ie = v.getLsbD 0 := by unfold writeCtrl; cases v.getLsbD 1 <;> rfl
@[simp] theorem writeCtrl_done (v : Word) (s : State) :
    (writeCtrl v s).done = (if v.getLsbD 1 then false else s.done) := by unfold writeCtrl; cases v.getLsbD 1 <;> rfl
@[simp] theorem writeCtrl_err (v : Word) (s : State) :
    (writeCtrl v s).err = (if v.getLsbD 1 then false else s.err) := by unfold writeCtrl; cases v.getLsbD 1 <;> rfl
@[simp] theorem writeCtrl_ovr (v : Word) (s : State) :
    (writeCtrl v s).ovr = (if v.getLsbD 1 then false else s.ovr) := by unfold writeCtrl; cases v.getLsbD 1 <;> rfl
@[simp] theorem writeCtrl_ecode (v : Word) (s : State) :
    (writeCtrl v s).ecode =
      (if v.getLsbD 1 then .noError else s.ecode) :=
  by unfold writeCtrl; cases v.getLsbD 1 <;> rfl
@[simp] theorem writeCtrl_cmd (v : Word) (s : State) :
    (writeCtrl v s).cmd = (if v.getLsbD 1 then 0 else s.cmd) := by unfold writeCtrl; cases v.getLsbD 1 <;> rfl
@[simp] theorem writeCtrl_ilen (v : Word) (s : State) :
    (writeCtrl v s).ilen = (if v.getLsbD 1 then 0 else s.ilen) := by unfold writeCtrl; cases v.getLsbD 1 <;> rfl
@[simp] theorem writeCtrl_olen (v : Word) (s : State) :
    (writeCtrl v s).olen = (if v.getLsbD 1 then 0 else s.olen) := by unfold writeCtrl; cases v.getLsbD 1 <;> rfl
@[simp] theorem writeCtrl_zrun (v : Word) (s : State) :
    (writeCtrl v s).zrun = (if v.getLsbD 1 then 0 else s.zrun) := by unfold writeCtrl; cases v.getLsbD 1 <;> rfl
@[simp] theorem writeCtrl_nvalLo (v : Word) (s : State) :
    (writeCtrl v s).nvalLo = (if v.getLsbD 1 then 0 else s.nvalLo) := by unfold writeCtrl; cases v.getLsbD 1 <;> rfl
@[simp] theorem writeCtrl_nvalHi (v : Word) (s : State) :
    (writeCtrl v s).nvalHi = (if v.getLsbD 1 then 0 else s.nvalHi) := by unfold writeCtrl; cases v.getLsbD 1 <;> rfl
@[simp] theorem writeCtrl_errIdx (v : Word) (s : State) :
    (writeCtrl v s).errIdx = (if v.getLsbD 1 then 0 else s.errIdx) := by unfold writeCtrl; cases v.getLsbD 1 <;> rfl
@[simp] theorem writeCtrl_ibuf (v : Word) (s : State) :
    (writeCtrl v s).ibuf = s.ibuf := by unfold writeCtrl; cases v.getLsbD 1 <;> rfl
@[simp] theorem writeCtrl_obuf (v : Word) (s : State) :
    (writeCtrl v s).obuf = s.obuf := by unfold writeCtrl; cases v.getLsbD 1 <;> rfl
@[simp] theorem writeCtrl_lcmd (v : Word) (s : State) :
    (writeCtrl v s).lcmd = (if v.getLsbD 1 then none else s.lcmd) := by unfold writeCtrl; cases v.getLsbD 1 <;> rfl
@[simp] theorem writeCtrl_accDraw (v : Word) (s : State) :
    (writeCtrl v s).accDraw =
      (if v.getLsbD 1 then s.accDraw + 1 else s.accDraw) :=
  by unfold writeCtrl; cases v.getLsbD 1 <;> rfl
@[simp] theorem writeCtrl_hardResets (v : Word) (s : State) :
    (writeCtrl v s).hardResets = s.hardResets := by unfold writeCtrl; cases v.getLsbD 1 <;> rfl
@[simp] theorem writeCtrl_latency (v : Word) (s : State) :
    (writeCtrl v s).latency = (if v.getLsbD 1 then 0 else s.latency) := by unfold writeCtrl; cases v.getLsbD 1 <;> rfl
@[simp] theorem writeCtrl_latencies (v : Word) (s : State) :
    (writeCtrl v s).latencies = s.latencies := by unfold writeCtrl; cases v.getLsbD 1 <;> rfl
@[simp] theorem writeCtrl_latencyDraws (v : Word) (s : State) :
    (writeCtrl v s).latencyDraws = s.latencyDraws := by unfold writeCtrl; cases v.getLsbD 1 <;> rfl
@[simp] theorem writeCtrl_inputs (v : Word) (s : State) :
    (writeCtrl v s).inputs = s.inputs := by unfold writeCtrl; cases v.getLsbD 1 <;> rfl
@[simp] theorem writeCtrl_resp (v : Word) (s : State) :
    (writeCtrl v s).resp = s.resp := by unfold writeCtrl; cases v.getLsbD 1 <;> rfl

/-! ### acknowledge -/

@[simp] theorem acknowledge_cfg (v : Word) (s : State) : (acknowledge v s).cfg = s.cfg := rfl
@[simp] theorem acknowledge_ie (v : Word) (s : State) : (acknowledge v s).ie = s.ie := rfl
@[simp] theorem acknowledge_done (v : Word) (s : State) : (acknowledge v s).done = (s.done && !v.getLsbD 1) := rfl
@[simp] theorem acknowledge_err (v : Word) (s : State) : (acknowledge v s).err = (s.err && !v.getLsbD 2) := rfl
@[simp] theorem acknowledge_ovr (v : Word) (s : State) : (acknowledge v s).ovr = (s.ovr && !v.getLsbD 3) := rfl
@[simp] theorem acknowledge_ecode (v : Word) (s : State) : (acknowledge v s).ecode = s.ecode := rfl
@[simp] theorem acknowledge_cmd (v : Word) (s : State) : (acknowledge v s).cmd = s.cmd := rfl
@[simp] theorem acknowledge_ilen (v : Word) (s : State) : (acknowledge v s).ilen = s.ilen := rfl
@[simp] theorem acknowledge_olen (v : Word) (s : State) : (acknowledge v s).olen = s.olen := rfl
@[simp] theorem acknowledge_zrun (v : Word) (s : State) : (acknowledge v s).zrun = s.zrun := rfl
@[simp] theorem acknowledge_nvalLo (v : Word) (s : State) : (acknowledge v s).nvalLo = s.nvalLo := rfl
@[simp] theorem acknowledge_nvalHi (v : Word) (s : State) : (acknowledge v s).nvalHi = s.nvalHi := rfl
@[simp] theorem acknowledge_errIdx (v : Word) (s : State) : (acknowledge v s).errIdx = s.errIdx := rfl
@[simp] theorem acknowledge_ibuf (v : Word) (s : State) : (acknowledge v s).ibuf = s.ibuf := rfl
@[simp] theorem acknowledge_obuf (v : Word) (s : State) : (acknowledge v s).obuf = s.obuf := rfl
@[simp] theorem acknowledge_lcmd (v : Word) (s : State) : (acknowledge v s).lcmd = s.lcmd := rfl
@[simp] theorem acknowledge_accDraw (v : Word) (s : State) : (acknowledge v s).accDraw = s.accDraw := rfl
@[simp] theorem acknowledge_hardResets (v : Word) (s : State) : (acknowledge v s).hardResets = s.hardResets := rfl
@[simp] theorem acknowledge_latency (v : Word) (s : State) : (acknowledge v s).latency = s.latency := rfl
@[simp] theorem acknowledge_latencies (v : Word) (s : State) : (acknowledge v s).latencies = s.latencies := rfl
@[simp] theorem acknowledge_latencyDraws (v : Word) (s : State) :
    (acknowledge v s).latencyDraws = s.latencyDraws := rfl
@[simp] theorem acknowledge_inputs (v : Word) (s : State) : (acknowledge v s).inputs = s.inputs := rfl
@[simp] theorem acknowledge_resp (v : Word) (s : State) : (acknowledge v s).resp = s.resp := rfl

/-! ### clearRegisters -/

@[simp] theorem clearRegisters_cfg (s : State) : (clearRegisters s).cfg = s.cfg := rfl
@[simp] theorem clearRegisters_ie (s : State) : (clearRegisters s).ie = s.ie := rfl
@[simp] theorem clearRegisters_done (s : State) : (clearRegisters s).done = false := rfl
@[simp] theorem clearRegisters_err (s : State) : (clearRegisters s).err = false := rfl
@[simp] theorem clearRegisters_ovr (s : State) : (clearRegisters s).ovr = false := rfl
@[simp] theorem clearRegisters_ecode (s : State) : (clearRegisters s).ecode = .noError := rfl
@[simp] theorem clearRegisters_cmd (s : State) : (clearRegisters s).cmd = 0 := rfl
@[simp] theorem clearRegisters_ilen (s : State) : (clearRegisters s).ilen = 0 := rfl
@[simp] theorem clearRegisters_olen (s : State) : (clearRegisters s).olen = 0 := rfl
@[simp] theorem clearRegisters_zrun (s : State) : (clearRegisters s).zrun = 0 := rfl
@[simp] theorem clearRegisters_nvalLo (s : State) : (clearRegisters s).nvalLo = 0 := rfl
@[simp] theorem clearRegisters_nvalHi (s : State) : (clearRegisters s).nvalHi = 0 := rfl
@[simp] theorem clearRegisters_errIdx (s : State) : (clearRegisters s).errIdx = 0 := rfl
@[simp] theorem clearRegisters_ibuf (s : State) : (clearRegisters s).ibuf = s.ibuf := rfl
@[simp] theorem clearRegisters_obuf (s : State) : (clearRegisters s).obuf = s.obuf := rfl
@[simp] theorem clearRegisters_lcmd (s : State) : (clearRegisters s).lcmd = none := rfl
@[simp] theorem clearRegisters_accDraw (s : State) : (clearRegisters s).accDraw = s.accDraw + 1 := rfl
@[simp] theorem clearRegisters_hardResets (s : State) : (clearRegisters s).hardResets = s.hardResets := rfl
@[simp] theorem clearRegisters_latency (s : State) : (clearRegisters s).latency = 0 := rfl
@[simp] theorem clearRegisters_latencies (s : State) : (clearRegisters s).latencies = s.latencies := rfl
@[simp] theorem clearRegisters_latencyDraws (s : State) : (clearRegisters s).latencyDraws = s.latencyDraws := rfl
@[simp] theorem clearRegisters_inputs (s : State) : (clearRegisters s).inputs = s.inputs := rfl
@[simp] theorem clearRegisters_resp (s : State) : (clearRegisters s).resp = s.resp := rfl

/-! ### softReset -/

@[simp] theorem softReset_cfg (s : State) : (softReset s).cfg = s.cfg := rfl
@[simp] theorem softReset_ie (s : State) : (softReset s).ie = s.ie := rfl
@[simp] theorem softReset_done (s : State) : (softReset s).done = false := rfl
@[simp] theorem softReset_err (s : State) : (softReset s).err = false := rfl
@[simp] theorem softReset_ovr (s : State) : (softReset s).ovr = false := rfl
@[simp] theorem softReset_ecode (s : State) : (softReset s).ecode = .noError := rfl
@[simp] theorem softReset_cmd (s : State) : (softReset s).cmd = 0 := rfl
@[simp] theorem softReset_ilen (s : State) : (softReset s).ilen = 0 := rfl
@[simp] theorem softReset_olen (s : State) : (softReset s).olen = 0 := rfl
@[simp] theorem softReset_zrun (s : State) : (softReset s).zrun = 0 := rfl
@[simp] theorem softReset_nvalLo (s : State) : (softReset s).nvalLo = 0 := rfl
@[simp] theorem softReset_nvalHi (s : State) : (softReset s).nvalHi = 0 := rfl
@[simp] theorem softReset_errIdx (s : State) : (softReset s).errIdx = 0 := rfl
@[simp] theorem softReset_ibuf (s : State) : (softReset s).ibuf = s.ibuf := rfl
@[simp] theorem softReset_obuf (s : State) : (softReset s).obuf = s.obuf := rfl
@[simp] theorem softReset_lcmd (s : State) : (softReset s).lcmd = none := rfl
@[simp] theorem softReset_accDraw (s : State) : (softReset s).accDraw = s.accDraw + 1 := rfl
@[simp] theorem softReset_hardResets (s : State) : (softReset s).hardResets = s.hardResets := rfl
@[simp] theorem softReset_latency (s : State) : (softReset s).latency = 0 := rfl
@[simp] theorem softReset_latencies (s : State) : (softReset s).latencies = s.latencies := rfl
@[simp] theorem softReset_latencyDraws (s : State) : (softReset s).latencyDraws = s.latencyDraws := rfl
@[simp] theorem softReset_inputs (s : State) : (softReset s).inputs = s.inputs := rfl
@[simp] theorem softReset_resp (s : State) : (softReset s).resp = s.resp := rfl

/-! ### hardReset -/

@[simp] theorem hardReset_cfg (s : State) : (hardReset s).cfg = s.cfg := rfl
@[simp] theorem hardReset_ie (s : State) : (hardReset s).ie = false := rfl
@[simp] theorem hardReset_done (s : State) : (hardReset s).done = false := rfl
@[simp] theorem hardReset_err (s : State) : (hardReset s).err = false := rfl
@[simp] theorem hardReset_ovr (s : State) : (hardReset s).ovr = false := rfl
@[simp] theorem hardReset_ecode (s : State) : (hardReset s).ecode = .noError := rfl
@[simp] theorem hardReset_cmd (s : State) : (hardReset s).cmd = 0 := rfl
@[simp] theorem hardReset_ilen (s : State) : (hardReset s).ilen = 0 := rfl
@[simp] theorem hardReset_olen (s : State) : (hardReset s).olen = 0 := rfl
@[simp] theorem hardReset_zrun (s : State) : (hardReset s).zrun = 0 := rfl
@[simp] theorem hardReset_nvalLo (s : State) : (hardReset s).nvalLo = 0 := rfl
@[simp] theorem hardReset_nvalHi (s : State) : (hardReset s).nvalHi = 0 := rfl
@[simp] theorem hardReset_errIdx (s : State) : (hardReset s).errIdx = 0 := rfl
@[simp] theorem hardReset_ibuf (s : State) : (hardReset s).ibuf = [] := rfl
@[simp] theorem hardReset_obuf (s : State) : (hardReset s).obuf = [] := rfl
@[simp] theorem hardReset_lcmd (s : State) : (hardReset s).lcmd = none := rfl
@[simp] theorem hardReset_accDraw (s : State) : (hardReset s).accDraw = s.accDraw + 1 := rfl
@[simp] theorem hardReset_hardResets (s : State) : (hardReset s).hardResets = s.hardResets + 1 := rfl
@[simp] theorem hardReset_latency (s : State) : (hardReset s).latency = 0 := rfl
@[simp] theorem hardReset_latencies (s : State) : (hardReset s).latencies = s.latencies := rfl
@[simp] theorem hardReset_latencyDraws (s : State) : (hardReset s).latencyDraws = s.latencyDraws := rfl
@[simp] theorem hardReset_inputs (s : State) : (hardReset s).inputs = s.inputs := rfl
@[simp] theorem hardReset_resp (s : State) : (hardReset s).resp = .idle := rfl

/-! ### latchCommand -/

@[simp] theorem latchCommand_cfg (w : Word) (s : State) : (latchCommand w s).cfg = s.cfg := rfl
@[simp] theorem latchCommand_ie (w : Word) (s : State) : (latchCommand w s).ie = s.ie := rfl
@[simp] theorem latchCommand_done (w : Word) (s : State) : (latchCommand w s).done = false := rfl
@[simp] theorem latchCommand_err (w : Word) (s : State) : (latchCommand w s).err = s.err := rfl
@[simp] theorem latchCommand_ovr (w : Word) (s : State) : (latchCommand w s).ovr = s.ovr := rfl
@[simp] theorem latchCommand_ecode (w : Word) (s : State) : (latchCommand w s).ecode = s.ecode := rfl
@[simp] theorem latchCommand_cmd (w : Word) (s : State) : (latchCommand w s).cmd = w := rfl
@[simp] theorem latchCommand_ilen (w : Word) (s : State) : (latchCommand w s).ilen = s.ilen := rfl
@[simp] theorem latchCommand_olen (w : Word) (s : State) : (latchCommand w s).olen = s.olen := rfl
@[simp] theorem latchCommand_zrun (w : Word) (s : State) : (latchCommand w s).zrun = s.zrun := rfl
@[simp] theorem latchCommand_nvalLo (w : Word) (s : State) : (latchCommand w s).nvalLo = s.nvalLo := rfl
@[simp] theorem latchCommand_nvalHi (w : Word) (s : State) : (latchCommand w s).nvalHi = s.nvalHi := rfl
@[simp] theorem latchCommand_errIdx (w : Word) (s : State) : (latchCommand w s).errIdx = s.errIdx := rfl
@[simp] theorem latchCommand_ibuf (w : Word) (s : State) : (latchCommand w s).ibuf = s.ibuf := rfl
@[simp] theorem latchCommand_obuf (w : Word) (s : State) : (latchCommand w s).obuf = s.obuf := rfl
@[simp] theorem latchCommand_lcmd (w : Word) (s : State) :
    (latchCommand w s).lcmd = some { word := w, ilen := s.ilen, ibuf := s.ibuf, nval := s.nval } := rfl
@[simp] theorem latchCommand_accDraw (w : Word) (s : State) : (latchCommand w s).accDraw = s.accDraw + 1 := rfl
@[simp] theorem latchCommand_hardResets (w : Word) (s : State) : (latchCommand w s).hardResets = s.hardResets := rfl
@[simp] theorem latchCommand_latency (w : Word) (s : State) : (latchCommand w s).latency = 0 := rfl
@[simp] theorem latchCommand_latencies (w : Word) (s : State) : (latchCommand w s).latencies = s.latencies := rfl
@[simp] theorem latchCommand_latencyDraws (w : Word) (s : State) :
    (latchCommand w s).latencyDraws = s.latencyDraws := rfl
@[simp] theorem latchCommand_inputs (w : Word) (s : State) : (latchCommand w s).inputs = s.inputs := rfl
@[simp] theorem latchCommand_resp (w : Word) (s : State) : (latchCommand w s).resp = s.resp := rfl

/-! ### drawLatency -/

@[simp] theorem drawLatency_cfg (s : State) : (drawLatency s).cfg = s.cfg := by unfold drawLatency; split <;> rfl
@[simp] theorem drawLatency_ie (s : State) : (drawLatency s).ie = s.ie := by unfold drawLatency; split <;> rfl
@[simp] theorem drawLatency_done (s : State) : (drawLatency s).done = s.done := by unfold drawLatency; split <;> rfl
@[simp] theorem drawLatency_err (s : State) : (drawLatency s).err = s.err := by unfold drawLatency; split <;> rfl
@[simp] theorem drawLatency_ovr (s : State) : (drawLatency s).ovr = s.ovr := by unfold drawLatency; split <;> rfl
@[simp] theorem drawLatency_ecode (s : State) :
    (drawLatency s).ecode = s.ecode := by unfold drawLatency; split <;> rfl
@[simp] theorem drawLatency_cmd (s : State) : (drawLatency s).cmd = s.cmd := by unfold drawLatency; split <;> rfl
@[simp] theorem drawLatency_ilen (s : State) : (drawLatency s).ilen = s.ilen := by unfold drawLatency; split <;> rfl
@[simp] theorem drawLatency_olen (s : State) : (drawLatency s).olen = s.olen := by unfold drawLatency; split <;> rfl
@[simp] theorem drawLatency_zrun (s : State) : (drawLatency s).zrun = s.zrun := by unfold drawLatency; split <;> rfl
@[simp] theorem drawLatency_nvalLo (s : State) :
    (drawLatency s).nvalLo = s.nvalLo := by unfold drawLatency; split <;> rfl
@[simp] theorem drawLatency_nvalHi (s : State) :
    (drawLatency s).nvalHi = s.nvalHi := by unfold drawLatency; split <;> rfl
@[simp] theorem drawLatency_errIdx (s : State) :
    (drawLatency s).errIdx = s.errIdx := by unfold drawLatency; split <;> rfl
@[simp] theorem drawLatency_ibuf (s : State) : (drawLatency s).ibuf = s.ibuf := by unfold drawLatency; split <;> rfl
@[simp] theorem drawLatency_obuf (s : State) : (drawLatency s).obuf = s.obuf := by unfold drawLatency; split <;> rfl
@[simp] theorem drawLatency_lcmd (s : State) : (drawLatency s).lcmd = s.lcmd := by unfold drawLatency; split <;> rfl
@[simp] theorem drawLatency_accDraw (s : State) :
    (drawLatency s).accDraw = s.accDraw := by unfold drawLatency; split <;> rfl
@[simp] theorem drawLatency_hardResets (s : State) :
    (drawLatency s).hardResets = s.hardResets := by unfold drawLatency; split <;> rfl
@[simp] theorem drawLatency_inputs (s : State) :
    (drawLatency s).inputs = s.inputs := by unfold drawLatency; split <;> rfl
@[simp] theorem drawLatency_resp (s : State) : (drawLatency s).resp = s.resp := by unfold drawLatency; split <;> rfl

/-! ### accept -/

@[simp] theorem accept_cfg (w : Word) (s : State) : (accept w s).cfg = s.cfg := by simp [accept]
@[simp] theorem accept_ie (w : Word) (s : State) : (accept w s).ie = s.ie := by simp [accept]
@[simp] theorem accept_done (w : Word) (s : State) : (accept w s).done = false := by simp [accept]
@[simp] theorem accept_err (w : Word) (s : State) : (accept w s).err = s.err := by simp [accept]
@[simp] theorem accept_ovr (w : Word) (s : State) : (accept w s).ovr = s.ovr := by simp [accept]
@[simp] theorem accept_ecode (w : Word) (s : State) : (accept w s).ecode = s.ecode := by simp [accept]
@[simp] theorem accept_cmd (w : Word) (s : State) : (accept w s).cmd = w := by simp [accept]
@[simp] theorem accept_ilen (w : Word) (s : State) : (accept w s).ilen = s.ilen := by simp [accept]
@[simp] theorem accept_olen (w : Word) (s : State) : (accept w s).olen = s.olen := by simp [accept]
@[simp] theorem accept_zrun (w : Word) (s : State) : (accept w s).zrun = s.zrun := by simp [accept]
@[simp] theorem accept_nvalLo (w : Word) (s : State) : (accept w s).nvalLo = s.nvalLo := by simp [accept]
@[simp] theorem accept_nvalHi (w : Word) (s : State) : (accept w s).nvalHi = s.nvalHi := by simp [accept]
@[simp] theorem accept_errIdx (w : Word) (s : State) : (accept w s).errIdx = s.errIdx := by simp [accept]
@[simp] theorem accept_ibuf (w : Word) (s : State) : (accept w s).ibuf = s.ibuf := by simp [accept]
@[simp] theorem accept_obuf (w : Word) (s : State) : (accept w s).obuf = s.obuf := by simp [accept]
@[simp] theorem accept_lcmd (w : Word) (s : State) :
    (accept w s).lcmd = some { word := w, ilen := s.ilen, ibuf := s.ibuf, nval := s.nval } := by simp [accept]
@[simp] theorem accept_accDraw (w : Word) (s : State) : (accept w s).accDraw = s.accDraw + 1 := by simp [accept]
@[simp] theorem accept_hardResets (w : Word) (s : State) : (accept w s).hardResets = s.hardResets := by simp [accept]
@[simp] theorem accept_inputs (w : Word) (s : State) : (accept w s).inputs = s.inputs := by simp [accept]
@[simp] theorem accept_resp (w : Word) (s : State) : (accept w s).resp = s.resp := by simp [accept]

/-! ### Derived views -/

theorem busy_eq (s : State) : s.busy = s.lcmd.isSome := by
  unfold State.busy State.phase; cases s.lcmd <;> rfl

theorem phase_eq_idle_iff (s : State) : s.phase = .idle ↔ s.lcmd = none := by
  unfold State.phase; cases s.lcmd <;> simp

theorem busy_false_iff (s : State) : s.busy = false ↔ s.lcmd = none := by
  rw [busy_eq]; cases s.lcmd <;> simp

theorem busy_true_iff (s : State) : s.busy = true ↔ ∃ c, s.lcmd = some c := by
  rw [busy_eq]; cases s.lcmd <;> simp

theorem operands_idle (s : State) (h : s.lcmd = none) :
    operandLen s = s.ilen.toNat ∧ (∀ i, operandEntry s i = s.ibufEntry i) ∧ operandInt s = s.nval.toNat := by
  simp [operandLen, operandEntry, operandInt, h]

/-- R51: under the invariant the snapshot is the live registers. -/
theorem operands_live (s : State) (h : s.SnapshotLive) :
    operandLen s = s.ilen.toNat ∧ (∀ i, operandEntry s i = s.ibufEntry i) ∧ operandInt s = s.nval.toNat := by
  cases hc : s.lcmd with
  | none => exact operands_idle s hc
  | some c =>
    obtain ⟨-, h1, h2, h3⟩ := h c hc
    simp [operandLen, operandEntry, operandInt, hc, h1, h2, h3, State.ibufEntry]

theorem operandInt_lt (s : State) : operandInt s < 2 ^ 64 := by
  unfold operandInt; split <;> exact BitVec.isLt _

@[simp] theorem operandDigits_length (s : State) : (operandDigits s).length = operandLen s := by
  simp [operandDigits]

theorem operandDigits_get (s : State) (i : Nat) (h : i < (operandDigits s).length) :
    (operandDigits s)[i] = (operandEntry s i).toNat := by
  simp [operandDigits]

theorem operandDigits_lt (s : State) : ∀ x ∈ operandDigits s, x < 256 := by
  intro x hx
  obtain ⟨i, -, rfl⟩ := List.mem_map.mp hx
  exact BitVec.isLt _

end Sys2Proof.Laws
end

