-- ==== Sys2Proof/Laws/Memory.lean ====
section
/-! SUPPORT. The digit buffers: read after write, canonical form and bounds kept by every memory operation. -/

namespace Sys2Proof.Laws

open Sys2Proof Sys2Proof.Machine

theorem stored_write (m : Memory) (i k : Nat) (b : Byte) :
    Memory.stored (Memory.write m i b) k = if k = i then some b else Memory.stored m k := by
  induction m with
  | nil => simp [Memory.write, Memory.stored]
  | cons c m ih =>
    obtain ⟨j, x⟩ := c
    simp only [Memory.write]
    split
    · simp [Memory.stored]
    · split
      · simp only [Memory.stored]; split <;> simp_all
      · simp only [Memory.stored, ih]; split <;> split <;> simp_all

/-- A read after a write of the same entry gives the digit written; every other entry reads as before. -/
theorem read_write (free : Nat → Byte) (m : Memory) (i k : Nat) (b : Byte) :
    Memory.read free (Memory.write m i b) k = if k = i then b else Memory.read free m k := by
  unfold Memory.read; rw [stored_write]; split <;> rfl

theorem mem_write {m : Memory} {i : Nat} {b : Byte} {c : Host.Cell} (h : c ∈ Memory.write m i b) :
    c.1 = i ∨ c ∈ m := by
  induction m with
  | nil => simp_all [Memory.write]
  | cons d m ih =>
    obtain ⟨j, x⟩ := d
    simp only [Memory.write] at h
    split at h
    · rcases List.mem_cons.mp h with rfl | h
      · exact .inl rfl
      · exact .inr h
    · split at h
      · rcases List.mem_cons.mp h with rfl | h
        · exact .inl rfl
        · exact .inr (List.mem_cons_of_mem _ h)
      · rcases List.mem_cons.mp h with rfl | h
        · exact .inr List.mem_cons_self
        · exact (ih h).imp_right (List.mem_cons_of_mem _)

/-- A write keeps the canonical form. -/
theorem write_wf {m : Memory} (i : Nat) (b : Byte) (h : Memory.wf m) : Memory.wf (Memory.write m i b) := by
  induction m with
  | nil => simp [Memory.write, Memory.wf]
  | cons d m ih =>
    obtain ⟨j, x⟩ := d
    obtain ⟨hd, hm⟩ := List.pairwise_cons.mp h
    simp only [Memory.write]
    split
    · rename_i hij
      refine List.pairwise_cons.mpr ⟨fun c hc => ?_, h⟩
      rcases List.mem_cons.mp hc with rfl | hc
      · exact hij
      · exact Nat.lt_trans hij (hd c hc)
    · split
      · rename_i hij
        exact List.pairwise_cons.mpr ⟨fun c hc => by have := hd c hc; simp_all, hm⟩
      · refine List.pairwise_cons.mpr ⟨fun c hc => ?_, ih hm⟩
        rcases mem_write hc with hc | hc
        · simp only [hc]; omega
        · exact hd c hc

theorem writeList_wf {m : Memory} (i : Nat) (bs : List Byte) (h : Memory.wf m) :
    Memory.wf (Memory.writeList m i bs) := by
  induction bs generalizing m i with
  | nil => exact h
  | cons b bs ih => exact ih (i + 1) (write_wf i b h)

theorem mem_writeList {m : Memory} {i : Nat} {bs : List Byte} {c : Host.Cell}
    (h : c ∈ Memory.writeList m i bs) : (i ≤ c.1 ∧ c.1 < i + bs.length) ∨ c ∈ m := by
  induction bs generalizing m i with
  | nil => exact .inr h
  | cons b bs ih =>
    simp only [List.length_cons]
    rcases ih h with h | h
    · left; omega
    · rcases mem_write h with h | h
      · left; omega
      · exact .inr h

/-- Entries `i` to `i + bs.length - 1` read as the bytes stored, every other entry as before. -/
theorem read_writeList (free : Nat → Byte) (m : Memory) (i : Nat) (bs : List Byte) (k : Nat) :
    Memory.read free (Memory.writeList m i bs) k =
      if i ≤ k then bs.getD (k - i) (Memory.read free m k) else Memory.read free m k := by
  induction bs generalizing m i with
  | nil => simp [Memory.writeList]
  | cons b bs ih =>
    simp only [Memory.writeList, ih, read_write]
    by_cases h1 : i ≤ k
    · by_cases h2 : k = i
      · subst h2; simp
      · have h3 : k - i = k - (i + 1) + 1 := by omega
        have h4 : i + 1 ≤ k := by omega
        simp [h1, h2, h3, h4]
    · have : ¬ i + 1 ≤ k := by omega
      have : k ≠ i := by omega
      simp [*]

/-- Every entry of OBUF after digits are stored: entry `i` of `out`, or what it held (R104, R42). -/
theorem storeDigits_obufEntry (out : List Nat) (s : State) (i : Nat) :
    (storeDigits out s).obufEntry i = if h : i < out.length then BitVec.ofNat 8 out[i] else s.obufEntry i := by
  unfold State.obufEntry
  rw [storeDigits_obuf, storeDigits_hardResets, read_writeList]
  by_cases h : i < out.length <;> simp [List.getD_eq_getElem?_getD, h]

theorem storeIbufWord_ibufEntry (w : Nat) (v : Word) (s : State) (i : Nat) :
    (storeIbufWord w v s).ibufEntry i =
      if 4 * w ≤ i ∧ i < 4 * w + 4 then byteOfWord v (i - 4 * w) else s.ibufEntry i := by
  unfold State.ibufEntry
  rw [storeIbufWord_ibuf, storeIbufWord_hardResets, read_writeList]
  by_cases h1 : 4 * w ≤ i
  · by_cases h2 : i < 4 * w + 4
    · obtain ⟨j, rfl⟩ := Nat.exists_eq_add_of_le h1
      have : j = 0 ∨ j = 1 ∨ j = 2 ∨ j = 3 := by omega
      rcases this with rfl | rfl | rfl | rfl <;> simp
    · have h3 : ¬ (i - 4 * w < 4) := by omega
      simp only [h1, h2, and_false, if_false, if_true]
      rw [List.getD_eq_default _ _ (by simp; omega)]
  · simp [h1]

/-! ### Entries read through state updates that touch no buffer -/

theorem ibufEntry_congr {s t : State} (h1 : t.ibuf = s.ibuf) (h2 : t.hardResets = s.hardResets) (i : Nat) :
    t.ibufEntry i = s.ibufEntry i := by simp [State.ibufEntry, h1, h2]

theorem obufEntry_congr {s t : State} (h1 : t.obuf = s.obuf) (h2 : t.hardResets = s.hardResets) (i : Nat) :
    t.obufEntry i = s.obufEntry i := by simp [State.obufEntry, h1, h2]

/-! ### Packing (R66) -/

theorem byteOfWord_packEntries (entry : Nat → Byte) (w j : Nat) (h : j < 4) :
    byteOfWord (packEntries entry w) j = entry (4 * w + j) := by
  have : j = 0 ∨ j = 1 ∨ j = 2 ∨ j = 3 := by omega
  unfold byteOfWord packEntries
  rcases this with rfl | rfl | rfl | rfl
  all_goals
    ext k hk
    simp only [BitVec.getElem_extractLsb', BitVec.getLsbD_append, Nat.add_zero]
    repeat' split
    all_goals first | (exfalso; omega) | (rw [BitVec.getLsbD_eq_getElem (by omega)]; congr 1; omega)

theorem packEntries_byteOfWord (v : Word) (w : Nat) (entry : Nat → Byte)
    (h : ∀ j < 4, entry (4 * w + j) = byteOfWord v j) : packEntries entry w = v := by
  have h0 := h 0 (by omega)
  have h1 := h 1 (by omega)
  have h2 := h 2 (by omega)
  have h3 := h 3 (by omega)
  simp only [Nat.add_zero] at h0
  unfold packEntries
  rw [h0, h1, h2, h3]
  unfold byteOfWord
  apply BitVec.eq_of_getLsbD_eq
  intro i hi
  simp only [BitVec.getLsbD_append, BitVec.getLsbD_extractLsb']
  have hi' : i < 32 := hi
  repeat' split
  · simp; omega
  · rw [show 8 * 1 + (i - 8) = i by omega]; simp; omega
  · rw [show 8 * 2 + (i - 8 - 8) = i by omega]; simp; omega
  · rw [show 8 * 3 + (i - 8 - 8 - 8) = i by omega]; simp; omega

end Sys2Proof.Laws
end

