-- ==== Sys2Proof/Laws/Numbers.lean ====
section
/-! SUPPORT. The number functions (R100 to R103): `value`, `digits` and `lz`. -/

namespace Sys2Proof.Laws

open Sys2Proof Sys2Proof.Machine

theorem two_le_base (r : Radix) : 2 ≤ r.base := by cases r <;> decide

theorem base_le (r : Radix) : r.base ≤ 256 := by cases r <;> decide

/-! ### value -/

@[simp] theorem value_nil (R : Nat) : value R [] = 0 := rfl

@[simp] theorem value_snoc (R : Nat) (d : List Nat) (x : Nat) : value R (d ++ [x]) = value R d * R + x := by
  simp [value]

theorem value_append (R : Nat) (d e : List Nat) : value R (d ++ e) = value R d * R ^ e.length + value R e := by
  induction e using List.reverseRecOn with
  | nil => simp
  | append_singleton e x ih =>
    rw [← List.append_assoc, value_snoc, value_snoc, ih, List.length_append, List.length_singleton, pow_succ]
    ring

theorem value_cons (R x : Nat) (d : List Nat) : value R (x :: d) = x * R ^ d.length + value R d := by
  simpa [value] using value_append R [x] d

@[simp] theorem value_zeros (R k : Nat) : value R (List.replicate k 0) = 0 := by
  induction k with
  | zero => rfl
  | succ k ih => rw [List.replicate_succ, value_cons, ih]; simp

@[simp] theorem value_zeros_append (R k : Nat) (d : List Nat) :
    value R (List.replicate k 0 ++ d) = value R d := by rw [value_append]; simp

theorem value_lt (R : Nat) (d : List Nat) (h : ∀ x ∈ d, x < R) : value R d < R ^ d.length := by
  induction d using List.reverseRecOn with
  | nil => simp
  | append_singleton d x ih =>
    have h1 := ih fun y hy => h y (by simp [hy])
    have h2 := h x (by simp)
    rw [value_snoc, List.length_append, List.length_singleton, pow_succ]
    calc value R d * R + x < value R d * R + R := by omega
      _ = (value R d + 1) * R := by ring
      _ ≤ R ^ d.length * R := Nat.mul_le_mul_right R h1

/-! ### digits -/

theorem digitsFrom_append (R fuel acc : Nat) (out : List Nat) :
    digitsFrom R fuel acc out = digitsFrom R fuel acc [] ++ out := by
  induction fuel generalizing acc out with
  | zero => rfl
  | succ n ih =>
    unfold digitsFrom
    split
    · rfl
    · rw [ih (acc / R) (acc % R :: out), ih (acc / R) [acc % R], List.append_assoc]; rfl

theorem digitsFrom_fuel {R : Nat} (hR : 2 ≤ R) {n m acc : Nat} (hn : acc < 2 ^ n) (hm : acc < 2 ^ m) :
    digitsFrom R n acc [] = digitsFrom R m acc [] := by
  induction n generalizing m acc with
  | zero =>
    have : acc = 0 := by simpa using hn
    subst this
    cases m <;> simp [digitsFrom]
  | succ n ih =>
    cases m with
    | zero =>
      have : acc = 0 := by simpa using hm
      subst this
      simp [digitsFrom]
    | succ m =>
      simp only [digitsFrom]
      split
      · rfl
      · have hq : acc / R ≤ acc / 2 := Nat.div_le_div_left hR (by omega)
        have h1 : acc / R < 2 ^ n := by rw [pow_succ] at hn; omega
        have h2 : acc / R < 2 ^ m := by rw [pow_succ] at hm; omega
        rw [digitsFrom_append R n, digitsFrom_append R m, ih h1 h2]

@[simp] theorem digits_zero (R : Nat) : digits R 0 = [] := by simp [digits, digitsFrom]

/-- One round of R101's loop. -/
theorem digits_step {R N : Nat} (hR : 2 ≤ R) (hN : N ≠ 0) : digits R N = digits R (N / R) ++ [N % R] := by
  have h1 : N < 2 ^ (N.log2 + 1) := Nat.lt_log2_self
  have hq : N / R ≤ N / 2 := Nat.div_le_div_left hR (by omega)
  have h2 : N / R < 2 ^ N.log2 := by rw [pow_succ] at h1; omega
  have h3 : N / R < 2 ^ ((N / R).log2 + 1) := Nat.lt_log2_self
  unfold digits
  rw [digitsFrom, if_neg hN, digitsFrom_append, digitsFrom_fuel hR h2 h3]

theorem digits_spec {R : Nat} (hR : 2 ≤ R) (N : Nat) :
    (∀ x ∈ digits R N, x < R) ∧ (digits R N).head? ≠ some 0 ∧ value R (digits R N) = N := by
  induction N using Nat.strongRecOn with
  | _ N ih =>
    by_cases hN : N = 0
    · subst hN; simp
    · obtain ⟨h1, h2, h3⟩ := ih (N / R) (Nat.div_lt_self (by omega) (by omega))
      have hmod : N % R < R := Nat.mod_lt _ (by omega)
      rw [digits_step hR hN]
      refine ⟨?_, ?_, ?_⟩
      · intro x hx
        rcases List.mem_append.mp hx with hx | hx
        · exact h1 x hx
        · simp only [List.mem_singleton] at hx; omega
      · by_cases hq : N / R = 0
        · have : N < R := by
            rcases Nat.div_eq_zero_iff.mp hq with h | h <;> omega
          rw [hq]; simp [Nat.mod_eq_of_lt this, hN]
        · have hne : digits R (N / R) ≠ [] := by
            intro h; rw [h] at h3; exact hq h3.symm
          rw [List.head?_append_of_ne_nil _ hne]; exact h2
      · rw [value_snoc, h3]; exact Nat.div_add_mod' N R

theorem digits_lt {R : Nat} (hR : 2 ≤ R) (N : Nat) : ∀ x ∈ digits R N, x < R := (digits_spec hR N).1

theorem digits_head {R : Nat} (hR : 2 ≤ R) (N : Nat) : (digits R N).head? ≠ some 0 := (digits_spec hR N).2.1

@[simp] theorem value_digits {R : Nat} (hR : 2 ≤ R) (N : Nat) : value R (digits R N) = N := (digits_spec hR N).2.2

theorem digits_ne_nil {R N : Nat} (hR : 2 ≤ R) (hN : N ≠ 0) : digits R N ≠ [] := by
  intro h; have := value_digits hR N; rw [h] at this; exact hN this.symm

/-- A non-empty digit sequence that starts with a non-zero digit has a value of at least `R^(length-1)`. -/
theorem pow_le_value {R : Nat} {d : List Nat} (hd : d ≠ []) (hh : d.head? ≠ some 0) :
    R ^ (d.length - 1) ≤ value R d := by
  cases d with
  | nil => exact absurd rfl hd
  | cons x d =>
    have hx : x ≠ 0 := by simpa using hh
    rw [value_cons, List.length_cons, Nat.add_sub_cancel]
    have := Nat.mul_le_mul_right (R ^ d.length) (Nat.one_le_iff_ne_zero.mpr hx)
    omega

/-- R102: a digit sequence with no leading zero is the digits of its value. -/
theorem digits_value_of_head {R : Nat} (hR : 2 ≤ R) {d : List Nat} (h : ∀ x ∈ d, x < R) (hh : d.head? ≠ some 0) :
    digits R (value R d) = d := by
  induction d using List.reverseRecOn with
  | nil => simp
  | append_singleton d x ih =>
    have hx : x < R := h x (by simp)
    have hhd : d.head? ≠ some 0 := by
      cases d with
      | nil => simp
      | cons y d => simpa using hh
    have hne : value R (d ++ [x]) ≠ 0 := by
      have := pow_le_value (R := R) (d := d ++ [x]) (by simp) hh
      have := Nat.pow_pos (n := (d ++ [x]).length - 1) (show 0 < R by omega)
      omega
    rw [digits_step hR hne, value_snoc]
    have h1 : (value R d * R + x) / R = value R d := by
      rw [Nat.mul_comm, Nat.mul_add_div (by omega), Nat.div_eq_of_lt hx, Nat.add_zero]
    have h2 : (value R d * R + x) % R = x := by
      rw [Nat.mul_comm, Nat.mul_add_mod, Nat.mod_eq_of_lt hx]
    rw [h1, h2, ih (fun y hy => h y (by simp [hy])) hhd]

/-- R102: the length is the unique `L` with `R^(L-1) <= N < R^L`. -/
theorem digits_length_le_iff {R : Nat} (hR : 2 ≤ R) (N L : Nat) : (digits R N).length ≤ L ↔ N < R ^ L := by
  constructor
  · intro h
    have h1 := value_lt R _ (digits_lt hR N)
    rw [value_digits hR] at h1
    exact Nat.lt_of_lt_of_le h1 (Nat.pow_le_pow_right (by omega) h)
  · intro h
    by_contra hc
    have hne : digits R N ≠ [] := by intro h0; rw [h0] at hc; simp at hc
    have h1 := pow_le_value (R := R) hne (digits_head hR N)
    rw [value_digits hR] at h1
    have h2 := Nat.pow_le_pow_right (show 0 < R by omega) (show L ≤ (digits R N).length - 1 by omega)
    omega

/-- R101 against Mathlib's digits, which are least significant first. -/
theorem digits_eq_reverse {R : Nat} (hR : 2 ≤ R) (N : Nat) : digits R N = (Nat.digits R N).reverse := by
  induction N using Nat.strongRecOn with
  | _ N ih =>
    by_cases hN : N = 0
    · subst hN; simp
    · have h : Nat.digits R N = N % R :: Nat.digits R (N / R) := Nat.digits_def' (by omega) (by omega)
      rw [h, digits_step hR hN, ih _ (Nat.div_lt_self (by omega) (by omega)), List.reverse_cons]

/-! ### lz -/

@[simp] theorem lz_nil : lz [] = 0 := rfl

theorem lz_cons (x : Nat) (d : List Nat) : lz (x :: d) = if x = 0 then lz d + 1 else 0 := by
  unfold lz; rw [List.takeWhile_cons]; by_cases h : x = 0 <;> simp [h]

theorem lz_le (d : List Nat) : lz d ≤ d.length := by
  induction d with
  | nil => simp
  | cons x d ih => rw [lz_cons]; split <;> simp [ih]

@[simp] theorem lz_zeros (k : Nat) : lz (List.replicate k 0) = k := by
  induction k with
  | zero => rfl
  | succ k ih => rw [List.replicate_succ, lz_cons, ih]; simp

/-- R103: the run is zeros, and what follows it does not start with a zero. -/
theorem lz_split (d : List Nat) : d = List.replicate (lz d) 0 ++ d.drop (lz d) := by
  induction d with
  | nil => rfl
  | cons x d ih =>
    rw [lz_cons]
    split
    · subst x; rw [List.replicate_succ, List.drop_succ_cons, List.cons_append, ← ih]
    · simp

theorem drop_lz_head (d : List Nat) : (d.drop (lz d)).head? ≠ some 0 := by
  induction d with
  | nil => simp
  | cons x d ih =>
    rw [lz_cons]
    split
    · rw [List.drop_succ_cons]; exact ih
    · simpa

theorem lz_zeros_append (k : Nat) {d : List Nat} (h : d.head? ≠ some 0) : lz (List.replicate k 0 ++ d) = k := by
  induction k with
  | zero =>
    cases d with
    | nil => rfl
    | cons x d => simp at h; simp [lz_cons, h]
  | succ k ih => rw [List.replicate_succ, List.cons_append, lz_cons, ih]; simp

/-- R103: the leading zeros add no magnitude. -/
theorem value_drop_lz (R : Nat) (d : List Nat) : value R (d.drop (lz d)) = value R d := by
  conv_rhs => rw [lz_split d, value_zeros_append]

/-- Converting a sequence to its own radix removes its leading zeros and nothing else. -/
theorem digits_value {R : Nat} (hR : 2 ≤ R) {d : List Nat} (h : ∀ x ∈ d, x < R) :
    digits R (value R d) = d.drop (lz d) := by
  rw [← value_drop_lz]
  exact digits_value_of_head hR (fun x hx => h x (List.mem_of_mem_drop hx)) (drop_lz_head d)

theorem lz_digits {R : Nat} (hR : 2 ≤ R) (N : Nat) : lz (digits R N) = 0 := by
  simpa using lz_zeros_append 0 (digits_head hR N)

end Sys2Proof.Laws
end

