-- ==== Sys2Proof/Laws/Commands.lean ====
section
/-! SUPPORT. What a command's completion can do: the input checks, the output writes, the two ends of R145, and the one
inversion lemma of `exec`. -/

namespace Sys2Proof.Laws

open Sys2Proof Sys2Proof.Machine

/-! ### The parameters -/

/-- R6's constraints, one by one. -/
theorem legal_iff (c : Config) : c.legal = true ↔
    c.ibufDepth % 4 = 0 ∧ 8 ≤ c.ibufDepth ∧ c.ibufDepth ≤ 4096 ∧ c.obufDepth % 4 = 0 ∧ 16 ≤ c.obufDepth ∧
      c.obufDepth ≤ 4096 ∧ 8 * c.ibufDepth ≤ c.accBits ∧ 64 ≤ c.accBits ∧ c.base % 16384 = 0 := by
  simp only [Config.legal, Bool.and_eq_true, beq_iff_eq, decide_eq_true_eq, and_assoc]

/-! ### Input checks -/

theorem firstOutOfRange_none {R : Nat} {d : List Nat} : firstOutOfRange R d = none ↔ ∀ x ∈ d, x < R := by
  simp [firstOutOfRange]

/-- R163: the smallest offending index. -/
theorem firstOutOfRange_some {R : Nat} {d : List Nat} {i : Nat} : firstOutOfRange R d = some i ↔
    ∃ h : i < d.length, R ≤ d[i] ∧ ∀ j (hj : j < i), d[j] < R := by
  unfold firstOutOfRange
  rw [List.findIdx?_eq_some_iff_getElem]
  simp

theorem inputDigits_long {R : Nat} {s : State} (h : s.cfg.ibufDepth < operandLen s) :
    inputDigits R s = .error { code := .lenRange, idx := 0 } := by simp [inputDigits, h]

theorem inputDigits_bad {R : Nat} {s : State} {i : Nat} (h : operandLen s ≤ s.cfg.ibufDepth)
    (hi : firstOutOfRange R (operandDigits s) = some i) :
    inputDigits R s = .error { code := .digitRange, idx := i } := by
  simp [inputDigits, Nat.not_lt.mpr h, hi]

theorem inputDigits_ok {R : Nat} {s : State} (h : operandLen s ≤ s.cfg.ibufDepth)
    (hd : ∀ x ∈ operandDigits s, x < R) : inputDigits R s = .ok (operandDigits s) := by
  simp [inputDigits, Nat.not_lt.mpr h, firstOutOfRange_none.mpr hd]

/-- What the input checks can answer. -/
theorem inputDigits_cases (R : Nat) (s : State) :
    (s.cfg.ibufDepth < operandLen s ∧ inputDigits R s = .error { code := .lenRange, idx := 0 }) ∨
    (operandLen s ≤ s.cfg.ibufDepth ∧ ∃ i, (∃ h : i < (operandDigits s).length, R ≤ (operandDigits s)[i] ∧
        ∀ j (hj : j < i), (operandDigits s)[j] < R) ∧
      inputDigits R s = .error { code := .digitRange, idx := i }) ∨
    (operandLen s ≤ s.cfg.ibufDepth ∧ (∀ x ∈ operandDigits s, x < R) ∧
      inputDigits R s = .ok (operandDigits s)) := by
  by_cases h : s.cfg.ibufDepth < operandLen s
  · exact .inl ⟨h, inputDigits_long h⟩
  · have h := Nat.not_lt.mp h
    cases hf : firstOutOfRange R (operandDigits s) with
    | none => exact .inr (.inr ⟨h, firstOutOfRange_none.mp hf, inputDigits_ok h (firstOutOfRange_none.mp hf)⟩)
    | some i => exact .inr (.inl ⟨h, i, firstOutOfRange_some.mp hf, inputDigits_bad h hf⟩)

/-! ### The two ends of a command -/

/-- R145, R160: what taking an error does. -/
theorem raiseError_failedWith (code : ErrorCode) (idx : Nat) (s : State) (n : Nat)
    (hn : (if code = .digitRange then idx % 2 ^ 16 else 0) = n) :
    FailedWith code n s (raiseError { code := code, idx := idx } s) where
  frame := ⟨by simp, by simp, by simp, by simp, by simp, fun i => ibufEntry_congr (by simp) (by simp) i,
    by simp, by simp, by simp, by simp, by simp⟩
  results := ⟨by simp, by simp, by simp, by simp, fun i => obufEntry_congr (by simp) (by simp) i⟩
  done := by simp
  busy := by simp [busy_eq]
  err := by simp
  ecode := by simp
  errIdx := by rw [raiseError_errIdx, ← hn]; split <;> simp

/-- A state with result writes applied: only OBUF, OLEN, ZRUN and NVAL may differ. -/
structure WritesResults (s t : State) : Prop where
  same : ∃ m n z lo hi, t = { s with obuf := m, olen := n, zrun := z, nvalLo := lo, nvalHi := hi }

theorem completeOk_succeeded {s t : State} (h : WritesResults s t) : Succeeded s (completeOk t) := by
  obtain ⟨m, n, z, lo, hi, rfl⟩ := h.same
  refine ⟨⟨?_, ?_, ?_, ?_, ?_, fun i => ibufEntry_congr ?_ ?_ i, ?_, ?_, ?_, ?_, ?_⟩, ?_, ?_, ?_, ?_, ?_⟩ <;>
    simp [busy_eq]

/-! ### Bodies -/

theorem commitDigits_long {out : List Nat} {k : Nat} {s : State} (h : s.cfg.obufDepth < out.length) :
    commitDigits out k s = .error { code := .outOverflow, idx := 0 } := by simp [commitDigits, h]

theorem commitDigits_ok {out : List Nat} {k : Nat} {s : State} (h : out.length ≤ s.cfg.obufDepth) :
    commitDigits out k s =
      .ok (storeOutput out k s) := by
  simp [commitDigits, Nat.not_lt.mpr h]

/-- What CONV and ENCI leave when their output fits: R104's and R130's commits. -/
theorem commit_outputIs {out : List Nat} {k : Nat} {s : State} (hlen : out.length < 2 ^ 16)
    (hout : ∀ x ∈ out, x < 256) :
    OutputIs out s (completeOk (storeOutput out k s)) := by
  have h : ∀ i, (completeOk (storeOutput out k s)).obufEntry i = (storeDigits out s).obufEntry i :=
    fun i => obufEntry_congr (by simp) (by simp) i
  refine ⟨?_, fun i hi => ?_, fun i hi => ?_⟩
  · simp only [completeOk_olen, storeOutput_olen, BitVec.toNat_ofNat, Nat.mod_eq_of_lt hlen]
  · rw [h, storeDigits_obufEntry, dif_pos hi]
    simp [Nat.mod_eq_of_lt (hout _ (List.getElem_mem hi))]
  · rw [h, storeDigits_obufEntry, dif_neg (by omega)]

theorem convOutput_lt {r1 r2 : Radix} {z : Bool} {d : List Nat} : ∀ x ∈ convOutput r1.base r2.base z d, x < 256 := by
  have hd : ∀ N, ∀ x ∈ digits r2.base N, x < 256 := fun N x hx =>
    Nat.lt_of_lt_of_le (digits_lt (two_le_base r2) N x hx) (base_le r2)
  intro x hx
  unfold convOutput at hx
  split at hx
  · rcases List.mem_append.mp hx with hx | hx
    · rw [List.eq_of_mem_replicate hx]; omega
    · exact hd _ x hx
  · exact hd _ x hx

/-- The integer a DECI completion leaves in NVAL (R131). -/
theorem storeInteger_nval {N : Nat} (h : N < 2 ^ 64) (k : Nat) (s : State) :
    (storeInteger N k s).nval.toNat = N := by
  rw [State.nval, storeInteger_nvalHi, storeInteger_nvalLo, BitVec.toNat_append, BitVec.toNat_ofNat,
    BitVec.toNat_ofNat, ← Nat.shiftLeft_add_eq_or_of_lt (by omega), Nat.shiftLeft_eq]
  omega

/-! ### Each command on each branch of its rule -/

theorem exec_conv_long {sr tr : Radix} {z : Bool} {s : State} (h : s.cfg.ibufDepth < operandLen s) :
    exec (.conv sr tr z) s = .next (raiseError { code := .lenRange, idx := 0 } s) := by
  simp only [exec, execConv, convBody, inputDigits_long h, finish]

theorem exec_conv_bad {sr tr : Radix} {z : Bool} {s : State} {i : Nat} (h : operandLen s ≤ s.cfg.ibufDepth)
    (hi : firstOutOfRange sr.base (operandDigits s) = some i) :
    exec (.conv sr tr z) s = .next (raiseError { code := .digitRange, idx := i } s) := by
  simp only [exec, execConv, convBody, inputDigits_bad h hi, finish]

theorem exec_conv_overflow {sr tr : Radix} {z : Bool} {s : State} (h : operandLen s ≤ s.cfg.ibufDepth)
    (hd : ∀ x ∈ operandDigits s, x < sr.base)
    (ho : s.cfg.obufDepth < (convOutput sr.base tr.base z (operandDigits s)).length) :
    exec (.conv sr tr z) s = .next (raiseError { code := .outOverflow, idx := 0 } s) := by
  simp only [exec, execConv, convBody, inputDigits_ok h hd, commitDigits_long ho, finish]

theorem exec_conv_ok {sr tr : Radix} {z : Bool} {s : State} (h : operandLen s ≤ s.cfg.ibufDepth)
    (hd : ∀ x ∈ operandDigits s, x < sr.base)
    (ho : (convOutput sr.base tr.base z (operandDigits s)).length ≤ s.cfg.obufDepth) :
    exec (.conv sr tr z) s = .next (completeOk
      (storeOutput (convOutput sr.base tr.base z (operandDigits s)) (lz (operandDigits s)) s)) := by
  simp only [exec, execConv, convBody, inputDigits_ok h hd, commitDigits_ok ho, finish]

/-- ENCI's output has at most 11 digits, because 2^64 is at most 58^11 (R130). -/
theorem enci_length (s : State) : (digits 58 (operandInt s)).length ≤ 11 :=
  (digits_length_le_iff (by omega) _ _).mpr (Nat.lt_of_lt_of_le (operandInt_lt s) (by norm_num))

theorem exec_enci_ok {s : State} (hc : s.cfg.legal = true) :
    exec .enci s = .next (completeOk (storeOutput (digits 58 (operandInt s)) 0 s)) := by
  have h1 := enci_length s
  have h2 := (legal_iff _).mp hc
  have h3 : (digits 58 (operandInt s)).length ≤ s.cfg.obufDepth := by omega
  simp only [exec, execEnci, enciBody, commitDigits_ok h3, finish]

theorem exec_deci_long {s : State} (h : s.cfg.ibufDepth < operandLen s) :
    exec .deci s = .next (raiseError { code := .lenRange, idx := 0 } s) := by
  simp only [exec, execDeci, deciBody, inputDigits_long h, finish]

theorem exec_deci_bad {s : State} {i : Nat} (h : operandLen s ≤ s.cfg.ibufDepth)
    (hi : firstOutOfRange 58 (operandDigits s) = some i) :
    exec .deci s = .next (raiseError { code := .digitRange, idx := i } s) := by
  simp only [exec, execDeci, deciBody, inputDigits_bad h hi, finish]

theorem exec_deci_overflow {s : State} (h : operandLen s ≤ s.cfg.ibufDepth) (hd : ∀ x ∈ operandDigits s, x < 58)
    (hv : 2 ^ 64 ≤ value 58 (operandDigits s)) :
    exec .deci s = .next (raiseError { code := .intOverflow, idx := 0 } s) := by
  simp only [exec, execDeci, deciBody, inputDigits_ok h hd, if_pos hv, finish]

theorem exec_deci_ok {s : State} (h : operandLen s ≤ s.cfg.ibufDepth) (hd : ∀ x ∈ operandDigits s, x < 58)
    (hv : value 58 (operandDigits s) < 2 ^ 64) :
    exec .deci s = .next (completeOk (storeInteger (value 58 (operandDigits s)) (lz (operandDigits s)) s)) := by
  simp only [exec, execDeci, deciBody, inputDigits_ok h hd, if_neg (Nat.not_le.mpr hv), finish]

theorem exec_illegal (w : Word) (s : State) :
    exec (.illegal w) s = .next (raiseError { code := .illegalCmd, idx := 0 } s) := rfl

theorem storeOutput_writes (out : List Nat) (k : Nat) (s : State) : WritesResults s (storeOutput out k s) :=
  ⟨_, _, _, _, _, rfl⟩

theorem storeInteger_writes (N k : Nat) (s : State) : WritesResults s (storeInteger N k s) :=
  ⟨_, _, _, _, _, rfl⟩

/-- OBUF[0..OLEN) read back is the sequence the command wrote. -/
theorem outputDigits_of_outputIs {out : List Nat} {s t : State} (h : OutputIs out s t) : t.outputDigits = out := by
  apply List.ext_getElem
  · simp [State.outputDigits, h.olen]
  · intro i h1 h2
    simp [State.outputDigits, h.written i h2]

/-! ### All commands at once -/

/-- SAY ONCE WHAT A COMPLETION CAN DO (R145): it answers a next state, which is either a failed end that writes no
result, or a successful end after result writes. -/
theorem exec_cases {i : Instr} {s t : State} (h : exec i s = .next t) :
    (∃ e : CmdError, (e.code ≠ .noError ∧ (e.code = .digitRange → e.idx < operandLen s ∧
        operandLen s ≤ s.cfg.ibufDepth)) ∧ t = raiseError e s) ∨
    (∃ u, WritesResults s u ∧ t = completeOk u ∧
      ((∃ out k, u = storeOutput out k s ∧
          out.length ≤ s.cfg.obufDepth ∧
          ((∃ sr tr z, i = .conv sr tr z ∧ operandLen s ≤ s.cfg.ibufDepth ∧ (∀ x ∈ operandDigits s, x < sr.base) ∧
              out = convOutput sr.base tr.base z (operandDigits s) ∧ k = lz (operandDigits s)) ∨
            (i = .enci ∧ out = digits 58 (operandInt s) ∧ k = 0))) ∨
        (i = .deci ∧ operandLen s ≤ s.cfg.ibufDepth ∧ (∀ x ∈ operandDigits s, x < 58) ∧
          value 58 (operandDigits s) < 2 ^ 64 ∧
          u = storeInteger (value 58 (operandDigits s)) (lz (operandDigits s)) s))) := by
  have commit : ∀ out k, (∃ e : CmdError, (e.code ≠ .noError ∧ (e.code = .digitRange → e.idx < operandLen s ∧
        operandLen s ≤ s.cfg.ibufDepth)) ∧ commitDigits out k s = .error e) ∨
      (out.length ≤ s.cfg.obufDepth ∧ commitDigits out k s =
        .ok (storeOutput out k s)) := by
    intro out k
    by_cases hl : s.cfg.obufDepth < out.length
    · exact .inl ⟨_, ⟨by simp, by simp⟩, commitDigits_long hl⟩
    · exact .inr ⟨Nat.not_lt.mp hl, commitDigits_ok (Nat.not_lt.mp hl)⟩
  cases i with
  | conv sr tr z =>
    simp only [exec, execConv, Host.Outcome.next.injEq] at h
    subst h
    unfold convBody
    rcases inputDigits_cases sr.base s with ⟨-, hi⟩ | ⟨hl, i, ⟨hlt, -⟩, hi⟩ | ⟨hl, hd, hi⟩
    · exact .inl ⟨{ code := .lenRange, idx := 0 }, ⟨by simp, by simp⟩, by rw [hi]; rfl⟩
    · exact .inl ⟨{ code := .digitRange, idx := i }, ⟨by simp, fun _ => ⟨by simpa [operandDigits] using hlt, hl⟩⟩,
        by rw [hi]; rfl⟩
    · rw [hi]
      rcases commit (convOutput sr.base tr.base z (operandDigits s)) (lz (operandDigits s)) with ⟨e, he, hc⟩ | ⟨ho, hc⟩
      · exact .inl ⟨e, he, by simp only [hc]; rfl⟩
      · exact .inr ⟨_, ⟨_, _, _, _, _, rfl⟩, by simp only [hc]; rfl,
          .inl ⟨_, _, rfl, ho, .inl ⟨sr, tr, z, rfl, hl, hd, rfl, rfl⟩⟩⟩
  | enci =>
    simp only [exec, execEnci, Host.Outcome.next.injEq] at h
    subst h
    unfold enciBody
    rcases commit (digits 58 (operandInt s)) 0 with ⟨e, he, hc⟩ | ⟨ho, hc⟩
    · exact .inl ⟨e, he, by rw [hc]; rfl⟩
    · exact .inr ⟨_, ⟨_, _, _, _, _, rfl⟩, by rw [hc]; rfl, .inl ⟨_, _, rfl, ho, .inr ⟨rfl, rfl, rfl⟩⟩⟩
  | deci =>
    simp only [exec, execDeci, Host.Outcome.next.injEq] at h
    subst h
    unfold deciBody
    rcases inputDigits_cases 58 s with ⟨-, hi⟩ | ⟨hl, i, ⟨hlt, -⟩, hi⟩ | ⟨hl, hd, hi⟩
    · exact .inl ⟨{ code := .lenRange, idx := 0 }, ⟨by simp, by simp⟩, by rw [hi]; rfl⟩
    · exact .inl ⟨{ code := .digitRange, idx := i }, ⟨by simp, fun _ => ⟨by simpa [operandDigits] using hlt, hl⟩⟩,
        by rw [hi]; rfl⟩
    · rw [hi]
      by_cases hv : 2 ^ 64 ≤ value 58 (operandDigits s)
      · exact .inl ⟨{ code := .intOverflow, idx := 0 }, ⟨by simp, by simp⟩, by simp only [hv, if_true]; rfl⟩
      · exact .inr ⟨_, ⟨_, _, _, _, _, rfl⟩, by simp only [hv, if_false]; rfl,
          .inr ⟨rfl, hl, hd, Nat.not_le.mp hv, rfl⟩⟩
  | illegal w =>
    simp only [exec, execIllegal, Host.Outcome.next.injEq] at h
    subst h
    exact .inl ⟨{ code := .illegalCmd, idx := 0 }, ⟨by simp, by simp⟩, rfl⟩

/-- R163: a completion with DIGIT_RANGE is CONV's or DECI's, and its index is the smallest offending one. -/
theorem exec_digitRange {i : Instr} {s t : State} (h : exec i s = .next t) (he : t.ecode = .digitRange) :
    ∃ R, ((∃ sr tr z, i = .conv sr tr z ∧ R = sr.base) ∨ (i = .deci ∧ R = 58)) ∧
      operandLen s ≤ s.cfg.ibufDepth ∧ firstOutOfRange R (operandDigits s) = some t.errIdx.toNat := by
  have found : ∀ R k, firstOutOfRange R (operandDigits s) = some k →
      t = raiseError { code := .digitRange, idx := k } s →
      firstOutOfRange R (operandDigits s) = some t.errIdx.toNat := by
    rintro R k hk rfl
    obtain ⟨hlt, -⟩ := firstOutOfRange_some.mp hk
    rw [operandDigits_length] at hlt
    have : operandLen s < 2 ^ 16 := by unfold operandLen; split <;> exact BitVec.isLt _
    rw [raiseError_errIdx, hk]
    simp only [if_true, BitVec.toNat_ofNat]
    rw [Nat.mod_eq_of_lt (by omega)]
  have next : ∀ {a b : State}, (Host.Outcome.next a : Host.Outcome State Fault Refusal) = .next b → b = a := by
    intro a b h; cases h; rfl
  cases i with
  | conv sr tr z =>
    rcases inputDigits_cases sr.base s with ⟨hl, -⟩ | ⟨hl, k, hk, -⟩ | ⟨hl, hd, -⟩
    · rw [exec_conv_long hl] at h; rw [next h] at he; simp at he
    · rw [exec_conv_bad hl (firstOutOfRange_some.mpr hk)] at h
      exact ⟨_, .inl ⟨sr, tr, z, rfl, rfl⟩, hl, found _ k (firstOutOfRange_some.mpr hk) (next h)⟩
    · by_cases ho : s.cfg.obufDepth < (convOutput sr.base tr.base z (operandDigits s)).length
      · rw [exec_conv_overflow hl hd ho] at h; rw [next h] at he; simp at he
      · rw [exec_conv_ok hl hd (Nat.not_lt.mp ho)] at h; rw [next h] at he; simp at he
  | enci =>
    rcases exec_cases h with ⟨e, ⟨-, hc⟩, rfl⟩ | ⟨u, -, rfl, -⟩
    · simp only [exec, execEnci, enciBody] at h
      by_cases ho : s.cfg.obufDepth < (digits 58 (operandInt s)).length
      · rw [commitDigits_long ho] at h; have := next h; rw [this] at he; simp [finish] at he
      · rw [commitDigits_ok (Nat.not_lt.mp ho)] at h; have := next h; rw [this] at he; simp [finish] at he
    · simp at he
  | deci =>
    rcases inputDigits_cases 58 s with ⟨hl, -⟩ | ⟨hl, k, hk, -⟩ | ⟨hl, hd, -⟩
    · rw [exec_deci_long hl] at h; rw [next h] at he; simp at he
    · rw [exec_deci_bad hl (firstOutOfRange_some.mpr hk)] at h
      exact ⟨_, .inr ⟨rfl, rfl⟩, hl, found _ k (firstOutOfRange_some.mpr hk) (next h)⟩
    · by_cases hv : 2 ^ 64 ≤ value 58 (operandDigits s)
      · rw [exec_deci_overflow hl hd hv] at h; rw [next h] at he; simp at he
      · rw [exec_deci_ok hl hd (Nat.not_le.mp hv)] at h; rw [next h] at he; simp at he
  | illegal w => rw [exec_illegal] at h; rw [next h] at he; simp at he

/-- Every completion answers a next state. -/
theorem exec_next (i : Instr) (s : State) : ∃ t, exec i s = .next t := by
  cases i <;> exact ⟨_, rfl⟩

/-- A command's end, successful or not: what it leaves alone and what it sets (R145). -/
theorem exec_frame {i : Instr} {s t : State} (h : exec i s = .next t) :
    CommandFrame s t ∧ t.lcmd = none ∧ t.done = true ∧ t.latency = 0 ∧ t.ibuf = s.ibuf := by
  rcases exec_cases h with ⟨e, -, rfl⟩ | ⟨u, hu, rfl, -⟩
  · exact ⟨(raiseError_failedWith e.code e.idx s _ rfl).frame, by simp, by simp, by simp, by simp⟩
  · refine ⟨(completeOk_succeeded hu).frame, by simp, by simp, by simp, ?_⟩
    obtain ⟨m, n, z, lo, hi, rfl⟩ := hu.same
    simp

end Sys2Proof.Laws
end

