-- ==== Sys2Proof/Laws/Decode.lean ====
section
/-! SUPPORT. The fields of a command word (R81) and the inversion of R83's decoder. -/

namespace Sys2Proof.Laws

open Sys2Proof

/-- A word is the concatenation of its R81 fields. -/
theorem word_of_fields (w : Word) :
    w = rsvField w ++ BitVec.ofBool (zField w) ++ trField w ++ srField w ++ opField w := by
  apply BitVec.eq_of_getLsbD_eq
  intro i hi
  simp only [rsvField, zField, trField, srField, opField, BitVec.getLsbD_append, BitVec.getLsbD_extractLsb',
    BitVec.getLsbD_ofBool]
  repeat' split
  · simp; omega
  · rw [show 4 + (i - 4) = i by omega]; simp; omega
  · rw [show 6 + (i - 4 - 2) = i by omega]; simp; omega
  · rename_i h1 h2 h3 h4
    obtain rfl : i = 8 := by omega
    simp
  · rw [show 9 + (i - 4 - 2 - 2 - 1) = i by omega]; simp; omega

/-- A word is bits 31:4 above its OP field. -/
theorem word_of_op (w : Word) : w = aboveOpField w ++ opField w := by
  apply BitVec.eq_of_getLsbD_eq
  intro i hi
  simp only [aboveOpField, opField, BitVec.getLsbD_append, BitVec.getLsbD_extractLsb']
  split
  · simp; omega
  · rw [show 4 + (i - 4) = i by omega]; simp; omega

@[simp] theorem radixOfCode_codeOfRadix (r : Radix) : radixOfCode (codeOfRadix r) = some r := by cases r <;> decide

theorem radixOfCode_eq_some {c : BitVec 2} {r : Radix} (h : radixOfCode c = some r) : c = codeOfRadix r := by
  unfold radixOfCode at h
  split at h
  · cases h; simpa [codeOfRadix]
  · split at h
    · cases h; simpa [codeOfRadix]
    · split at h
      · cases h; simpa [codeOfRadix]
      · cases h

theorem radixOfCode_none {c : BitVec 2} : radixOfCode c = none ↔ c = 3 := by
  revert c; decide

theorem decodeConv_ok {w : Word} {i : Instr} (h : decodeConv w = .ok i) :
    ∃ sr tr, i = .conv sr tr (zField w) ∧ zeroRunLegal sr tr (zField w) = true ∧ rsvField w = 0 ∧
      srField w = codeOfRadix sr ∧ trField w = codeOfRadix tr := by
  unfold decodeConv at h
  split at h
  · cases h
  · rename_i hr
    split at h
    · rename_i sr tr hs ht
      split at h
      · rename_i hz
        cases h
        exact ⟨sr, tr, rfl, hz, by simpa using hr, radixOfCode_eq_some hs, radixOfCode_eq_some ht⟩
      · cases h
    · cases h

/-- A word that decodes to a legal command is that command's encoding, and the command is well formed. -/
theorem decodeLegal_ok {w : Word} {i : Instr} (h : decodeLegal w = .ok i) : encode i = w ∧ wellFormed i = true := by
  unfold decodeLegal at h
  split at h
  · rename_i hop
    obtain ⟨sr, tr, rfl, hz, hr, hs, ht⟩ := decodeConv_ok h
    refine ⟨?_, hz⟩
    conv_rhs => rw [word_of_fields w, hr, hs, ht, hop]
    rfl
  · split at h
    · rename_i hop
      split at h
      · cases h
      · rename_i ha
        cases h
        refine ⟨?_, rfl⟩
        conv_rhs => rw [word_of_op w, hop, of_not_not ha]
        rfl
    · split at h
      · rename_i hop
        split at h
        · cases h
        · rename_i ha
          cases h
          refine ⟨?_, rfl⟩
          conv_rhs => rw [word_of_op w, hop, of_not_not ha]
          rfl
      · cases h

/-- No legal command is ILLEGAL. -/
theorem decodeLegal_ok_ne {w : Word} {i : Instr} (h : decodeLegal w = .ok i) (v : Word) : i ≠ .illegal v := by
  rintro rfl
  unfold decodeLegal at h
  split at h
  · obtain ⟨_, _, h, _⟩ := decodeConv_ok h; cases h
  · split at h
    · split at h <;> cases h
    · split at h
      · split at h <;> cases h
      · cases h

theorem decode_eq_of_ok {w : Word} {i : Instr} (h : decodeLegal w = .ok i) : decode w = i := by
  simp [decode, h]

theorem decode_eq_illegal {w : Word} {r : IllegalReason} (h : decodeLegal w = .error r) : decode w = .illegal w := by
  simp [decode, h]

/-- R83: a legal command's encoding decodes to it. -/
theorem decodeLegal_encode {i : Instr} (h : wellFormed i = true) (hi : ∀ w, i ≠ .illegal w) :
    decodeLegal (encode i) = .ok i := by
  cases i with
  | conv sr tr z => revert h; cases sr <;> cases tr <;> cases z <;> decide
  | enci => decide
  | deci => decide
  | illegal w => exact absurd rfl (hi w)

/-- R87: the encodings of the well-formed legal commands are the 13 words. -/
theorem encode_mem_legalWords {i : Instr} (h : wellFormed i = true) (hi : ∀ w, i ≠ .illegal w) :
    encode i ∈ legalWords := by
  cases i with
  | conv sr tr z => revert h; cases sr <;> cases tr <;> cases z <;> decide
  | enci => decide
  | deci => decide
  | illegal w => exact absurd rfl (hi w)

end Sys2Proof.Laws
end

