-- ==== Sys2Proof/Laws/Host.lean ====
section
/-! SUPPORT. What a host access can do: the address map (R61), one lemma per kind of target, and the one inversion lemma
of `hostAccess` and of `applyInput`. -/

namespace Sys2Proof.Laws

open Sys2Proof Sys2Proof.Machine

/-! ### The address map -/

theorem target_ibuf {c : Config} {off : Offset} {w : Nat} (hc : c.legal = true) (ho : off.toNat = 0x1000 + 4 * w)
    (hw : w < c.ibufDepth / 4) : target c off = .ibufWord w := by
  have := (legal_iff c).mp hc
  have h1 : ¬ off.toNat < 0x1000 := by omega
  have h2 : off.toNat < 0x1000 + c.ibufDepth := by omega
  have h3 : (off.toNat - 0x1000) / 4 = w := by omega
  simp only [target, h1, h2, h3, if_true, if_false]

theorem target_obuf {c : Config} {off : Offset} {w : Nat} (hc : c.legal = true) (ho : off.toNat = 0x2000 + 4 * w)
    (hw : w < c.obufDepth / 4) : target c off = .obufWord w := by
  have := (legal_iff c).mp hc
  have h1 : ¬ off.toNat < 0x1000 := by omega
  have h2 : ¬ off.toNat < 0x1000 + c.ibufDepth := by omega
  have h3 : ¬ off.toNat < 0x2000 := by omega
  have h4 : off.toNat < 0x2000 + c.obufDepth := by omega
  have h5 : (off.toNat - 0x2000) / 4 = w := by omega
  simp only [target, h1, h2, h3, h4, h5, if_true, if_false]

theorem regAt_none {n : Nat} (h : 0x2C ≤ n) : regAt n = none := by
  unfold regAt; split <;> first | omega | rfl

theorem target_reserved {c : Config} {off : Offset} (hc : c.legal = true)
    (h : (0x002C ≤ off.toNat ∧ off.toNat < 0x1000) ∨
      (0x1000 + c.ibufDepth ≤ off.toNat ∧ off.toNat < 0x2000) ∨ 0x2000 + c.obufDepth ≤ off.toNat) :
    target c off = .reserved := by
  have := (legal_iff c).mp hc
  unfold target
  rcases h with ⟨h1, h2⟩ | ⟨h1, h2⟩ | h1
  · simp only [h2, if_true, regAt_none h1]
  · have h3 : ¬ off.toNat < 0x1000 := by omega
    have h4 : ¬ off.toNat < 0x1000 + c.ibufDepth := by omega
    simp only [h2, h3, h4, if_true, if_false]
  · have h3 : ¬ off.toNat < 0x1000 := by omega
    have h4 : ¬ off.toNat < 0x1000 + c.ibufDepth := by omega
    have h5 : ¬ off.toNat < 0x2000 := by omega
    have h6 : ¬ off.toNat < 0x2000 + c.obufDepth := by omega
    simp only [h3, h4, h5, h6, if_false]

/-- What the targets a write can change say about the offset (R61, R22). -/
theorem target_spec (c : Config) (off : Offset) :
    (∀ r, target c off = .reg r → (r = .ctrl → off = 0x008) ∧ (r = .status → off = 0x00C) ∧ (r = .cmd → off = 0x010) ∧
      (r = .ilen → off = 0x014) ∧ (r = .nvalLo → off = 0x020) ∧ (r = .nvalHi → off = 0x024)) ∧
    (∀ w, target c off = .ibufWord w →
      0x1000 ≤ off.toNat ∧ off.toNat < 0x1000 + c.ibufDepth ∧ w = (off.toNat - 0x1000) / 4) := by
  have key : ∀ n : Nat, n < 2 ^ 14 → off.toNat = n → off = BitVec.ofNat 14 n := by
    intro n hn h; apply BitVec.eq_of_toNat_eq; rw [h, BitVec.toNat_ofNat, Nat.mod_eq_of_lt hn]
  constructor
  · intro r h
    simp only [target] at h
    split at h
    · split at h
      · rename_i _ r' hr
        obtain rfl : r' = r := by simpa using h
        unfold regAt at hr
        split at hr <;> simp only [Option.some.injEq, reduceCtorEq] at hr
        all_goals subst hr; simp only [reduceCtorEq, false_implies, true_and, and_true, forall_const]
        all_goals exact key _ (by decide) (by assumption)
      · exact absurd h (by simp)
    · split at h
      · exact absurd h (by simp)
      · split at h
        · exact absurd h (by simp)
        · split at h <;> exact absurd h (by simp)
  · intro w h
    simp only [target] at h
    split at h
    · split at h <;> exact absurd h (by simp)
    · split at h
      · simp only [Target.ibufWord.injEq] at h; omega
      · split at h
        · exact absurd h (by simp)
        · split at h <;> exact absurd h (by simp)

/-! ### Accesses -/

theorem accepted_rd {off : Offset} (h : off.toNat % 4 = 0) : (rd off).accepted = true := by
  simp [Access.accepted, rd, h]

theorem accepted_wr {off : Offset} {v : Word} (h : off.toNat % 4 = 0) : (wr off v).accepted = true := by
  simp [Access.accepted, wr, h]

/-- R141: an accepted read changes the bus response and nothing else. -/
theorem hostAccess_rd {off : Offset} (h : off.toNat % 4 = 0) (s : State) :
    hostAccess (rd off) s = respond (.data (readTarget (target s.cfg off) s)) s := by
  unfold hostAccess; rw [accepted_rd h]; rfl

theorem hostAccess_wr {off : Offset} {v : Word} (h : off.toNat % 4 = 0) (s : State) :
    hostAccess (wr off v) s = respond .written (writeTarget (target s.cfg off) v s) := by
  unfold hostAccess; rw [accepted_wr h]; rfl

/-- R152: an access that is not accepted changes the bus response and nothing else. -/
theorem hostAccess_busError {a : Access} (h : a.accepted = false) (s : State) :
    hostAccess a s = respond .busError s := by
  unfold hostAccess; rw [h]; rfl

/-- What an accepted write of `v` to offset `off` can change, the bus response apart (R142 to R148). -/
inductive WriteEffect (off : Offset) (v : Word) (s : State) : State → Prop
  | ctrl (ho : off = 0x008) : WriteEffect off v s (writeCtrl v s)
  | status (ho : off = 0x00C) : WriteEffect off v s (acknowledge v s)
  | accept (ho : off = 0x010) (hb : s.busy = false) : WriteEffect off v s (accept v s)
  | dropped (hb : s.busy = true) (ho : off ∈ [(0x010 : Offset), 0x014, 0x020, 0x024] ∨
      (0x1000 ≤ off.toNat ∧ off.toNat < 0x1000 + s.cfg.ibufDepth)) : WriteEffect off v s (setOverrun s)
  | ilen (ho : off = 0x014) (hb : s.busy = false) : WriteEffect off v s { s with ilen := v.extractLsb' 0 16 }
  | nvalLo (ho : off = 0x020) (hb : s.busy = false) : WriteEffect off v s { s with nvalLo := v }
  | nvalHi (ho : off = 0x024) (hb : s.busy = false) : WriteEffect off v s { s with nvalHi := v }
  | ibuf (w : Nat) (ho : off.toNat = 0x1000 + 4 * w) (hd : off.toNat < 0x1000 + s.cfg.ibufDepth)
      (hb : s.busy = false) : WriteEffect off v s (storeIbufWord w v s)

/-- SAY ONCE WHAT A HOST ACCESS CAN DO (R141 to R149, R152). -/
theorem hostAccess_cases (a : Access) (s : State) :
    (∃ r, hostAccess a s = respond r s) ∨
    (∃ v, a = wr a.off v ∧ a.off.toNat % 4 = 0 ∧ ∃ t, hostAccess a s = respond .written t ∧
      WriteEffect a.off v s t) := by
  by_cases hacc : a.accepted = true
  swap
  · exact .inl ⟨_, hostAccess_busError (by simpa using hacc) s⟩
  have h' := hacc
  simp only [Access.accepted, Bool.and_eq_true, beq_iff_eq] at h'
  obtain ⟨hw, hoff⟩ := h'
  cases hk : a.kind with
  | read =>
    left
    have : a = rd a.off := by cases a; simp_all [rd]
    rw [this]
    exact ⟨_, hostAccess_rd hoff s⟩
  | write v =>
    have ha : a = wr a.off v := by cases a; simp_all [wr]
    have hout : hostAccess a s = respond .written (writeTarget (target s.cfg a.off) v s) := by
      conv_lhs => rw [ha]
      exact hostAccess_wr hoff s
    obtain ⟨hreg, hibuf⟩ := target_spec s.cfg a.off
    have nothing : writeTarget (target s.cfg a.off) v s = s → ∃ r, hostAccess a s = respond r s :=
      fun h => ⟨_, by rw [hout, h]⟩
    have change : ∀ {t : State}, writeTarget (target s.cfg a.off) v s = t →
        hostAccess a s = respond .written t := fun h => by rw [hout, h]
    cases ht : target s.cfg a.off with
    | reserved => exact .inl (nothing (by rw [ht]; rfl))
    | obufWord w => exact .inl (nothing (by rw [ht]; rfl))
    | ibufWord w =>
      obtain ⟨h1, h2, h3⟩ := hibuf w ht
      refine .inr ⟨v, ha, hoff, _, change rfl, ?_⟩
      simp only [ht, writeTarget, lockedWrite]
      split
      · exact .dropped ‹_› (.inr ⟨h1, h2⟩)
      · exact .ibuf w (by omega) h2 (Bool.eq_false_iff.mpr ‹_›)
    | reg r =>
      obtain ⟨c1, c2, c3, c4, c5, c6⟩ := hreg r ht
      cases r with
      | id => exact .inl (nothing (by rw [ht]; rfl))
      | param => exact .inl (nothing (by rw [ht]; rfl))
      | olen => exact .inl (nothing (by rw [ht]; rfl))
      | zrun => exact .inl (nothing (by rw [ht]; rfl))
      | errIdx => exact .inl (nothing (by rw [ht]; rfl))
      | ctrl => exact .inr ⟨v, ha, hoff, _, change (by rw [ht]; rfl), .ctrl (c1 rfl)⟩
      | status => exact .inr ⟨v, ha, hoff, _, change (by rw [ht]; rfl), .status (c2 rfl)⟩
      | cmd =>
        refine .inr ⟨v, ha, hoff, _, change rfl, ?_⟩
        simp only [ht, writeTarget, writeReg, writeCmd]
        split
        · exact .dropped ‹_› (.inl (by simp [c3]))
        · exact .accept (c3 rfl) (Bool.eq_false_iff.mpr ‹_›)
      | ilen =>
        refine .inr ⟨v, ha, hoff, _, change rfl, ?_⟩
        simp only [ht, writeTarget, writeReg, lockedWrite]
        split
        · exact .dropped ‹_› (.inl (by simp [c4]))
        · exact .ilen (c4 rfl) (Bool.eq_false_iff.mpr ‹_›)
      | nvalLo =>
        refine .inr ⟨v, ha, hoff, _, change rfl, ?_⟩
        simp only [ht, writeTarget, writeReg, lockedWrite]
        split
        · exact .dropped ‹_› (.inl (by simp [c5]))
        · exact .nvalLo (c5 rfl) (Bool.eq_false_iff.mpr ‹_›)
      | nvalHi =>
        refine .inr ⟨v, ha, hoff, _, change rfl, ?_⟩
        simp only [ht, writeTarget, writeReg, lockedWrite]
        split
        · exact .dropped ‹_› (.inl (by simp [c6]))
        · exact .nvalHi (c6 rfl) (Bool.eq_false_iff.mpr ‹_›)

/-! ### Inputs -/

/-- R190: the reset input is the hard reset. -/
@[simp] theorem applyInput_hardReset (s : State) : applyInput .hardReset s = hardReset s := rfl

/-- A round of POLL changes the bus response, and the host's next accesses where it will read again. -/
theorem pollRound_cases (off : Offset) (mask val : Word) (s : State) :
    ∃ r l, pollRound off mask val s = { s with resp := r, inputs := l } ∧
      (l = s.inputs ∨ l = .poll off mask val :: s.inputs) := by
  have hread : ∃ r, hostAccess (rd off) s = respond r s := by
    unfold hostAccess
    split
    · exact ⟨_, rfl⟩
    · exact ⟨_, rfl⟩
  obtain ⟨r, hr⟩ := hread
  unfold pollRound
  rw [hr]
  cases r with
  | data v =>
    simp only [respond_resp]
    split
    · exact ⟨.data v, _, rfl, .inl rfl⟩
    · exact ⟨.data v, _, rfl, .inr rfl⟩
  | idle => exact ⟨.idle, _, rfl, .inl rfl⟩
  | written => exact ⟨.written, _, rfl, .inl rfl⟩
  | busError => exact ⟨.busError, _, rfl, .inl rfl⟩

/-- SAY ONCE WHAT AN INPUT CAN DO: nothing but the model's record of the bus and the host, a reset, or one of the write
effects of R142 to R148. -/
theorem applyInput_cases (i : Input) (s : State) :
    (∃ r l, applyInput i s = { s with resp := r, inputs := l } ∧
      (l = s.inputs ∨ ∃ off mask val, i = .poll off mask val ∧ l = i :: s.inputs)) ∨
    (i = .hardReset ∧ applyInput i s = hardReset s) ∨
    (∃ off v, i = Input.writes off v ∧ off.toNat % 4 = 0 ∧ ∃ t, applyInput i s = respond .written t ∧
      WriteEffect off v s t) := by
  cases i with
  | access a =>
    rcases hostAccess_cases a s with ⟨r, hr⟩ | ⟨v, ha, ho, t, ht, hc⟩
    · exact .inl ⟨r, s.inputs, hr, .inl rfl⟩
    · exact .inr (.inr ⟨a.off, v, congrArg Input.access ha, ho, t, ht, hc⟩)
  | poll off mask val =>
    obtain ⟨r, l, h, hl⟩ := pollRound_cases off mask val s
    exact .inl ⟨r, l, h, hl.imp_right fun h => ⟨off, mask, val, rfl, h⟩⟩
  | hardReset => exact .inr (.inl ⟨rfl, rfl⟩)

end Sys2Proof.Laws
end

