-- ==== Sys2Proof/Laws/PerInstr.lean ====
section
/-! SUPPORT. The per-instruction family of LAWS.json: the fields of every command's encoding (R81, R82). -/

namespace Sys2Proof.Laws.EncodedFields

open Sys2Proof

/-- R82: the OP code, the fields used and the bits that must be zero; an ILLEGAL word is kept whole. -/
def Statement : Instr → Prop
  | .conv sr tr z =>
    opField (encode (.conv sr tr z)) = 0x1 ∧ srField (encode (.conv sr tr z)) = codeOfRadix sr ∧
      trField (encode (.conv sr tr z)) = codeOfRadix tr ∧ zField (encode (.conv sr tr z)) = z ∧
      rsvField (encode (.conv sr tr z)) = 0
  | .enci => opField (encode .enci) = 0x2 ∧ aboveOpField (encode .enci) = 0
  | .deci => opField (encode .deci) = 0x3 ∧ aboveOpField (encode .deci) = 0
  | .illegal w => encode (.illegal w) = w

theorem conv (sr tr : Radix) (z : Bool) : Statement (.conv sr tr z) := by
  unfold Statement; cases sr <;> cases tr <;> cases z <;> decide

theorem enci : Statement .enci := by unfold Statement; decide

theorem deci : Statement .deci := by unfold Statement; decide

theorem illegal (w : Word) : Statement (.illegal w) := rfl

end Sys2Proof.Laws.EncodedFields
end

