-- ==== Sys2Proof/Laws/Step.lean ====
section
/-! SUPPORT. The one inversion lemma of `step`. -/

namespace Sys2Proof.Laws

open Sys2Proof Sys2Proof.Machine

theorem completes_iff (s : State) :
    s.Completes ↔ (∃ c, s.lcmd = some c) ∧ (s.latency = 0 ∨ s.inputs = []) := by
  simp [State.Completes, busy_true_iff, State.completionDue]

/-- R145: a due completion runs the latched command. -/
theorem step_complete {s : State} {c : Latched} (hl : s.cfg.legal = true) (hc : s.lcmd = some c)
    (hd : s.latency = 0 ∨ s.inputs = []) : step s = exec (decode c.word) s := by
  have : s.completionDue = true := by simpa [State.completionDue] using hd
  simp [step, hl, hc, this]

/-- R140: otherwise the next input is applied. -/
theorem step_input {s : State} {i : Input} {rest : List Input} (hl : s.cfg.legal = true) (hi : s.inputs = i :: rest)
    (hd : s.lcmd = none ∨ s.latency ≠ 0) :
    step s = .next (applyInput i { s with inputs := rest, latency := s.latency - 1 }) := by
  have hout : outsideStep s = applyInput i { s with inputs := rest, latency := s.latency - 1 } := by
    unfold outsideStep; rw [hi]
  unfold step
  rw [if_pos hl, ← hout]
  cases hc : s.lcmd with
  | none => rfl
  | some c =>
    have : s.completionDue = false := by simp_all [State.completionDue]
    simp [this]

/-- With no command running and no input, the block idles (R179). -/
theorem step_idle {s : State} (hl : s.cfg.legal = true) (hc : s.lcmd = none) (hi : s.inputs = []) :
    step s = .next s := by
  unfold step; rw [if_pos hl, hc]; simp [outsideStep, hi]

/-- SAY ONCE WHAT A STEP CAN DO: a completion, the next input, or idling. -/
theorem step_cases {s t : State} (h : step s = .next t) : s.cfg.legal = true ∧
    ((∃ c, s.lcmd = some c ∧ s.Completes ∧ exec (decode c.word) s = .next t) ∨
     (¬ s.Completes ∧ ∃ i rest, s.inputs = i :: rest ∧ s.Takes i ∧
        t = applyInput i { s with inputs := rest, latency := s.latency - 1 }) ∨
     (¬ s.Completes ∧ s.lcmd = none ∧ s.inputs = [] ∧ t = s)) := by
  by_cases hl : s.cfg.legal = true
  swap
  · simp [step, hl] at h
  refine ⟨hl, ?_⟩
  by_cases hcomp : s.Completes
  · obtain ⟨⟨c, hc⟩, hd⟩ := (completes_iff s).mp hcomp
    exact .inl ⟨c, hc, hcomp, by rw [← step_complete hl hc hd]; exact h⟩
  · right
    have hn := mt (completes_iff s).mpr hcomp
    cases hi : s.inputs with
    | nil =>
      right
      have hnone : s.lcmd = none := by
        cases hc : s.lcmd with
        | none => rfl
        | some c => exact absurd ⟨⟨c, hc⟩, .inr hi⟩ hn
      refine ⟨hcomp, hnone, rfl, ?_⟩
      simp [step, hl, hnone, outsideStep, hi] at h
      exact h.symm
    | cons i rest =>
      left
      have hd : s.lcmd = none ∨ s.latency ≠ 0 := by
        cases hc : s.lcmd with
        | none => exact .inl rfl
        | some c => exact .inr fun h0 => hn ⟨⟨c, hc⟩, .inl h0⟩
      rw [step_input hl hi hd] at h
      exact ⟨hcomp, i, rest, rfl, ⟨hcomp, by rw [hi]; rfl⟩, by simpa using h.symm⟩

end Sys2Proof.Laws
end

