-- ==== Sys2Proof/Laws/Running.lean ====
section
/-! SUPPORT. What no input changes (the parameters), what the host can do to a running command, and the operands two
states share. -/

namespace Sys2Proof.Laws

open Sys2Proof Sys2Proof.Machine

/-! ### Operands -/

/-- States with equal operands have equal digit sequences. -/
theorem operandDigits_congr {s t : State} (hl : operandLen t = operandLen s)
    (he : ∀ j < operandLen s, operandEntry t j = operandEntry s j) : operandDigits t = operandDigits s := by
  unfold operandDigits
  rw [hl]
  exact List.map_congr_left fun j hj => by rw [he j (List.mem_range.mp hj)]

/-- R51: the operands of a running command are those of its snapshot. -/
theorem operands_of_snapshot {s t : State} {c : Latched} (hs : s.lcmd = some c) (ht : t.lcmd = some c)
    (hr : t.hardResets = s.hardResets) :
    operandLen t = operandLen s ∧ (∀ i, operandEntry t i = operandEntry s i) ∧ operandInt t = operandInt s := by
  simp [operandLen, operandEntry, operandInt, hs, ht, hr]

/-- With legal parameters the zero run of an accepted input fits ZRUN. -/
theorem lz_fits {s : State} (hs : s.Legal) (h : operandLen s ≤ s.cfg.ibufDepth) : lz (operandDigits s) < 2 ^ 16 := by
  have h1 := (legal_iff s.cfg).mp hs
  have h2 := lz_le (operandDigits s)
  rw [operandDigits_length] at h2
  omega

/-- With legal parameters a committed output's length fits OLEN. -/
theorem output_fits {s : State} {out : List Nat} (hs : s.Legal) (h : out.length ≤ s.cfg.obufDepth) :
    out.length < 2 ^ 16 := by
  have h1 := (legal_iff s.cfg).mp hs
  omega

/-! ### Accesses -/

/-- R142: a CMD write while BUSY = 0 is an accept. -/
theorem hostAccess_cmd_idle {s : State} (w : Word) (h : s.busy = false) :
    hostAccess (wr 0x010 w) s = respond .written (accept w s) := by
  rw [hostAccess_wr (by decide)]
  have : target s.cfg 0x010 = .reg .cmd := rfl
  rw [this]
  simp [writeTarget, writeReg, writeCmd, h]

/-- R143: a CMD write while BUSY = 1 is dropped. -/
theorem hostAccess_cmd_busy {s : State} (w : Word) (h : s.busy = true) :
    hostAccess (wr 0x010 w) s = respond .written (setOverrun s) := by
  rw [hostAccess_wr (by decide)]
  have : target s.cfg 0x010 = .reg .cmd := rfl
  rw [this]
  simp [writeTarget, writeReg, writeCmd, h]

theorem hostAccess_status (v : Word) (s : State) :
    hostAccess (wr 0x00C v) s = respond .written (acknowledge v s) := hostAccess_wr (by decide) s

theorem hostAccess_ctrl (v : Word) (s : State) :
    hostAccess (wr 0x008 v) s = respond .written (writeCtrl v s) := hostAccess_wr (by decide) s

/-- Which writes are resets (R147, R191). -/
theorem isReset_writes (off : Offset) (v : Word) : (Input.writes off v).isReset =
    (decide (off.toNat % 4 = 0) && off == 0x008 && v.getLsbD 1) := by
  simp [Input.writes, Input.isReset, Access.accepted, wr, beq_eq_decide]

theorem isReset_ctrl {v : Word} (h : v.getLsbD 1 = true) : (Input.writes 0x008 v).isReset = true := by
  rw [isReset_writes, h]; decide

/-- R147: a CTRL write without bit 1 stores IE only. -/
theorem writeCtrl_plain {v : Word} (h : v.getLsbD 1 = false) (s : State) :
    writeCtrl v s = { s with ie := v.getLsbD 0 } := by
  unfold writeCtrl; rw [h]; rfl

/-! ### Inputs -/

/-- No input changes the parameters. -/
theorem applyInput_cfg (i : Input) (s : State) : (applyInput i s).cfg = s.cfg := by
  rcases applyInput_cases i s with ⟨r, l, h, -⟩ | ⟨-, h⟩ | ⟨off, v, -, -, t, h, hw⟩
  · rw [h]
  · rw [h]; simp
  · rw [h]; cases hw <;> simp

/-- What stays while a command runs (R51, R73, R195): the latch, the operands, and everything a completion commits. DONE
may be cleared, not set. -/
structure Untouched (s t : State) : Prop where
  cfg : t.cfg = s.cfg
  lcmd : t.lcmd = s.lcmd
  hardResets : t.hardResets = s.hardResets
  latency : t.latency = s.latency
  cmd : t.cmd = s.cmd
  ilen : t.ilen = s.ilen
  olen : t.olen = s.olen
  zrun : t.zrun = s.zrun
  nvalLo : t.nvalLo = s.nvalLo
  nvalHi : t.nvalHi = s.nvalHi
  errIdx : t.errIdx = s.errIdx
  ecode : t.ecode = s.ecode
  ibuf : t.ibuf = s.ibuf
  obuf : t.obuf = s.obuf
  done : t.done = true → s.done = true

/-- SAY ONCE WHAT AN INPUT CAN DO TO A RUNNING COMMAND: nothing, unless it is a reset, and then the engine is IDLE. -/
theorem running_input {i : Input} {s : State} (hb : s.busy = true) :
    (i.isReset = true ∧ (applyInput i s).lcmd = none) ∨
    (i.isReset = false ∧ Untouched s (applyInput i s) ∧
      ((applyInput i s).inputs = s.inputs ∨ (applyInput i s).inputs = i :: s.inputs)) := by
  rcases applyInput_cases i s with ⟨r, l, h, hl⟩ | ⟨rfl, h⟩ | ⟨off, v, rfl, ho, t, h, hw⟩
  · cases hr : i.isReset with
    | true =>
      cases i with
      | poll off mask val => cases hr
      | hardReset =>
        left; refine ⟨rfl, ?_⟩
        show (hardReset s).lcmd = none
        simp
      | access a =>
        left; refine ⟨rfl, ?_⟩
        cases hk : a.kind with
        | read => simp [Input.isReset, hk] at hr
        | write v =>
          simp only [Input.isReset, hk, Bool.and_eq_true, beq_iff_eq] at hr
          obtain ⟨⟨ha, hoff⟩, hv⟩ := hr
          have : a = wr 0x008 v := by
            simp only [Access.accepted, Bool.and_eq_true, beq_iff_eq] at ha
            cases a; simp_all [wr]
          subst this
          show (hostAccess (wr 0x008 v) s).lcmd = none
          rw [hostAccess_ctrl, respond_lcmd, writeCtrl_lcmd, hv]
          rfl
    | false =>
      right
      refine ⟨rfl, ?_, ?_⟩
      · rw [h]; constructor <;> first | rfl | exact id
      · rw [h]; rcases hl with hl | ⟨_, _, _, _, hl⟩
        · exact .inl hl
        · exact .inr hl
  · left; rw [h]; exact ⟨rfl, by simp⟩
  · rw [h]
    cases hw with
    | ctrl ho' =>
      subst ho'
      cases hv : v.getLsbD 1 with
      | true => left; rw [isReset_ctrl hv, respond_lcmd, writeCtrl_lcmd, hv]; exact ⟨rfl, rfl⟩
      | false =>
        right
        refine ⟨by rw [isReset_writes, hv, Bool.and_false], ?_, .inl ?_⟩
        · rw [writeCtrl_plain hv]; constructor <;> first | rfl | exact id
        · rw [writeCtrl_plain hv]; rfl
    | status ho' =>
      subst ho'
      right
      refine ⟨by rw [isReset_writes]; rfl, ?_, .inl rfl⟩
      constructor <;> first | rfl | skip
      simp only [respond_done, acknowledge_done, Bool.and_eq_true]
      exact And.left
    | dropped hb' ho' =>
      right
      refine ⟨?_, ?_, .inl rfl⟩
      · rw [isReset_writes]
        have : (off == (0x008 : Offset)) = false := by
          rcases ho' with ho' | ⟨h1, -⟩
          · simp only [List.mem_cons, List.not_mem_nil, or_false] at ho'
            rcases ho' with rfl | rfl | rfl | rfl <;> decide
          · rw [beq_eq_false_iff_ne]; rintro rfl; exact absurd h1 (by decide)
        rw [this, Bool.and_false, Bool.false_and]
      · constructor <;> first | rfl | exact id
    | accept _ hb' => rw [hb] at hb'; cases hb'
    | ilen _ hb' => rw [hb] at hb'; cases hb'
    | nvalLo _ hb' => rw [hb] at hb'; cases hb'
    | nvalHi _ hb' => rw [hb] at hb'; cases hb'
    | ibuf w _ _ hb' => rw [hb] at hb'; cases hb'

end Sys2Proof.Laws
end

