-- ==== Sys2Proof/Tests/Slice0.lean ====
section
/-! SUPPORT. Tests against the vectors of spec/95_test_vectors.md, the smoke test of WellFormed, and, for every statement
with hypotheses, states and operands that meet them all. -/

namespace Sys2Proof.Tests

open Sys2Proof Sys2Proof.Machine

/-! ### Helpers -/

/-- The block after hard reset with `xs` written to IBUF and ILEN. -/
def loaded (xs : List Nat) : State :=
  { State.reset with ibuf := Memory.writeList [] 0 (xs.map (BitVec.ofNat 8)), ilen := BitVec.ofNat 16 xs.length }

/-- The block with NVAL loaded. -/
def loadedInt (n : Nat) : State := { State.reset with nvalLo := BitVec.ofNat 32 n, nvalHi := BitVec.ofNat 32 (n / 2 ^ 32) }

/-- A block with the least legal depths, 8 and 16. -/
def small (s : State) : State := { s with cfg := { s.cfg with ibufDepth := 8, obufDepth := 16, accBits := 64 } }

/-- `s` with the command word `w` accepted, `k` host steps of latency left, and `l` to come from the host. -/
def running (w : Word) (k : Nat) (l : List Input) (s : State) : State :=
  { latchCommand w s with latency := k, inputs := l }

/-- `s` with `l` to come from the host. -/
def hearing (l : List Input) (s : State) : State := { s with inputs := l }

def nextState (o : Host.Outcome State Fault Refusal) : Option State :=
  match o with
  | .next t => some t
  | _ => none

theorem exists_next {o : Host.Outcome State Fault Refusal} {P : State → Prop} [DecidablePred P]
    (h : ((nextState o).any fun t => decide (P t)) = true) : ∃ t, o = .next t ∧ P t := by
  cases o with
  | next t => exact ⟨t, rfl, by simpa [nextState] using h⟩
  | fault r => simp [nextState] at h
  | refused r => simp [nextState] at h

/-! ### WellFormed: each check refuses an ill-formed term -/

/-- R85: Z = 1 on a pair other than the two byte paths. -/
theorem test_wellFormed_zero_run :
    wellFormed (.conv .ten .ten true) = false ∧ wellFormed (.conv .twoFiftySix .twoFiftySix true) = false ∧
    wellFormed (.conv .fiftyEight .fiftyEight true) = false ∧ wellFormed (.conv .ten .fiftyEight true) = false := by decide

/-- R87: a legal word is no ILLEGAL. -/
theorem test_wellFormed_illegal : wellFormed (.illegal 0x00000161) = false ∧ wellFormed (.illegal 0x00000003) = false := by
  decide

/-! ### Decoding: words from spec/95_test_vectors.md section 2.1, bit by bit from R81 -/

/-- `RSV = 0, Z = 1, TR = 01, SR = 10, OP = 0001`. -/
theorem test_decode_conv : decode 0b00000000000000000000000_1_01_10_0001 = .conv .twoFiftySix .fiftyEight true := by decide

theorem test_decode_dec : decode 0b00000000000000000000000_1_10_01_0001 = .conv .fiftyEight .twoFiftySix true := by decide

theorem test_decode_enci : decode 0b00000000000000000000000000000010 = .enci := by decide

theorem test_decode_deci : decode 0b00000000000000000000000000000011 = .deci := by decide

theorem test_decode_illegal : decode 0x00000000 = .illegal 0x00000000 ∧ decode 0x00000004 = .illegal 0x00000004 ∧
    decode 0x0000000F = .illegal 0x0000000F ∧ decode 0x00000031 = .illegal 0x00000031 ∧
    decode 0x000000C1 = .illegal 0x000000C1 ∧ decode 0x00000101 = .illegal 0x00000101 ∧
    decode 0x00000151 = .illegal 0x00000151 ∧ decode 0x00000141 = .illegal 0x00000141 ∧
    decode 0x00000111 = .illegal 0x00000111 ∧ decode 0x000001A1 = .illegal 0x000001A1 ∧
    decode 0x00000361 = .illegal 0x00000361 ∧ decode 0x80000061 = .illegal 0x80000061 ∧
    decode 0x00000012 = .illegal 0x00000012 ∧ decode 0x00000013 = .illegal 0x00000013 ∧
    decode 0x00000022 = .illegal 0x00000022 ∧ decode 0xFFFFFFFF = .illegal 0xFFFFFFFF := by decide

/-- R88's reasons. -/
theorem test_decode_reasons : decodeLegal 0x00000000 = .error .badOpcode ∧ decodeLegal 0x00000031 = .error .reservedRadix ∧
    decodeLegal 0x00000101 = .error .zeroRunPair ∧ decodeLegal 0x00000361 = .error .reservedBits := by decide

theorem test_decodeTableWord : decodeTableWord 32 0x91 = some (.conv .fiftyEight .twoFiftySix false) ∧
    decodeTableWord 8 0x91 = some (.conv .fiftyEight .twoFiftySix false) ∧ decodeTableWord 40 0x2 = none := by decide

/-! ### Commands, one step each -/

/-- spec/95_test_vectors.md V2. -/
theorem test_conv_V2 : ∃ t, step ((loaded [0, 0, 1, 2, 3, 4, 5, 6]).withFetchWord 32 0x161) = .next t ∧
    t.outputDigits = [0, 0, 29, 6, 19, 35, 26, 56, 6] ∧ t.zrun = 2 ∧ t.statusWord = 0x2 ∧ t.errIdx = 0 :=
  exists_next (by decide)

/-- spec/95_test_vectors.md C14, C16: ILEN = 257, and OBUF_DEPTH = 16. -/
theorem test_conv_C14_C16 :
    (∃ t, step ({ State.reset with ilen := 257 }.withFetchWord 32 0x61) = .next t ∧
      t.statusWord = 0x206 ∧ t.olen = 0 ∧ t.errIdx = 0) ∧
    ∃ t, step ((small (loaded (List.replicate 8 255))).withFetchWord 32 0x21) = .next t ∧
      t.statusWord = 0x406 ∧ t.olen = 0 ∧ t.errIdx = 0 := ⟨exists_next (by decide), exists_next (by decide)⟩

/-- spec/95_test_vectors.md I4. -/
theorem test_enci_I4 : ∃ t, step ((loadedInt 0xFFFFFFFFFFFFFFFF).withFetchWord 32 0x2) = .next t ∧
    t.outputDigits = [42, 47, 30, 11, 32, 37, 36, 15, 38, 28, 23] ∧ t.zrun = 0 ∧ t.nval = 0xFFFFFFFFFFFFFFFF :=
  exists_next (by decide)

/-- spec/95_test_vectors.md I4b: the high half is read. -/
theorem test_enci_I4b : ∃ t, step ((loadedInt 0x100000000).withFetchWord 32 0x2) = .next t ∧
    t.outputDigits = [6, 31, 30, 48, 8, 16] := exists_next (by decide)

/-- spec/95_test_vectors.md I5 with I8's leading zeros. -/
theorem test_deci_I5 : ∃ t, step ((loaded [0, 0, 42, 47, 30, 11, 32, 37, 36, 15, 38, 28, 23]).withFetchWord 32 0x3)
    = .next t ∧ t.nval = 0xFFFFFFFFFFFFFFFF ∧ t.zrun = 2 ∧ t.statusWord = 0x2 := exists_next (by decide)

/-- spec/95_test_vectors.md I6. -/
theorem test_deci_I6 : ∃ t, step ((loaded [42, 47, 30, 11, 32, 37, 36, 15, 38, 28, 24]).withFetchWord 32 0x3) = .next t ∧
    t.nval = 0 ∧ t.statusWord = 0x506 ∧ t.errIdx = 0 := exists_next (by decide)

/-- spec/95_test_vectors.md H16. -/
theorem test_illegal_H16 : ∃ t, step (State.reset.withFetchWord 32 0) = .next t ∧ t.statusWord = 0x106 ∧ t.cmd = 0 :=
  exists_next (by decide)

/-- An ILLEGAL word ignores a length and digits that CONV and DECI would refuse (R162). -/
theorem test_illegal_first : ∃ t, step ((small (loaded (List.replicate 9 255))).withFetchWord 32 0x361) = .next t ∧
    t.statusWord = 0x106 ∧ t.cmd = 0x361 := exists_next (by decide)

/-! ### Host accesses -/

/-- spec/95_test_vectors.md H1, H2, H3. -/
theorem test_reset_reads : (hostAccess (rd 0x000) State.reset).resp = .data 0x42353801 ∧
    (hostAccess (rd 0x004) State.reset).resp = .data 0x04000100 ∧ (hostAccess (rd 0x00C) State.reset).resp = .data 0 ∧
    (hostAccess (rd 0x008) State.reset).resp = .data 0 ∧ (hostAccess (rd 0x030) State.reset).resp = .data 0 := by decide

/-- spec/95_test_vectors.md H4, H5. -/
theorem test_status_write :
    let s := { State.reset with ecode := .digitRange, err := true, done := true }
    s.statusWord = 0x306 ∧ (hostAccess (wr 0x00C 0x6) s).statusWord = 0x300 ∧
    (hostAccess (wr 0x00C 0x1) s).statusWord = 0x306 := by decide

/-- spec/95_test_vectors.md H6, H7, H8, H9 on a running command. -/
theorem test_busy_writes :
    let s := running 0x161 3 [] (loaded [1, 0])
    (hostAccess (wr 0x010 0x2) s).statusWord = 0x9 ∧ (hostAccess (wr 0x010 0x2) s).cmd = 0x161 ∧
    (hostAccess (wr 0x014 5) s).ilen = 2 ∧ (hostAccess (wr 0x014 5) s).ovr = true ∧
    (hostAccess (wr 0x1000 0x05050505) s).ibuf = s.ibuf ∧ (hostAccess (wr 0x008 0x1) s).ie = true := by decide

/-- spec/95_test_vectors.md H10. -/
theorem test_soft_reset :
    let s := hostAccess (wr 0x008 0x2) (running 0x161 3 [] (loaded [1, 0]))
    s.statusWord = 0 ∧ s.cmd = 0 ∧ s.ilen = 0 ∧ s.lcmd = none ∧ s.ibufEntry 0 = 1 := by decide

/-- spec/95_test_vectors.md H11, H12. -/
theorem test_no_effect :
    hostAccess { off := 0x010, width := .bits8, kind := .write 2 } State.reset = { State.reset with resp := .busError } ∧
    hostAccess (rd 0x1002) State.reset = { State.reset with resp := .busError } ∧
    hostAccess (wr 0x018 7) State.reset = { State.reset with resp := .written } := by decide

/-- spec/95_test_vectors.md H14. -/
theorem test_packing : (hostAccess (rd 0x1000) (loaded [0x48, 0x65, 0x6C, 0x6C])).resp = .data 0x6C6C6548 ∧
    (hostAccess (wr 0x1000 0x6C6C6548) State.reset).ibuf = [(0, 0x48), (1, 0x65), (2, 0x6C), (3, 0x6C)] := by decide

/-- spec/95_test_vectors.md H15. -/
theorem test_irq :
    let s := { State.reset with ie := true, done := true }
    s.irq = true ∧ (hostAccess (wr 0x00C 0x2) s).irq = false := by decide

/-! ### Witnesses: encoding and number functions -/

theorem witness_DecodeOfEncode : wellFormed (.conv .twoFiftySix .fiftyEight true) = true ∧ wellFormed .enci = true ∧
    wellFormed .deci = true ∧ wellFormed (.illegal 0) = true := by decide

theorem witness_ThirteenLegalWords : (0x00000000 : Word) ∉ legalWords ∧ (0x80000061 : Word) ∉ legalWords := by decide

/-- One word per listed case of R88, and a block that accepts it. -/
theorem witness_IllegalWordsCompleteWithIllegalCmd : State.reset.busy = false ∧
    (0x0 : Word).extractLsb' 0 4 = 0x0 ∧ 0x4 ≤ (0x4 : Word).extractLsb' 0 4 ∧
    ((0x201 : Word).extractLsb' 0 4 = 0x1 ∧ (0x201 : Word).extractLsb' 9 23 ≠ 0) ∧
    ((0x31 : Word).extractLsb' 0 4 = 0x1 ∧ (0x31 : Word).extractLsb' 4 2 = 3) ∧
    ((0xC1 : Word).extractLsb' 0 4 = 0x1 ∧ (0xC1 : Word).extractLsb' 6 2 = 3) ∧
    ((0x101 : Word).getLsbD 8 = true ∧ (0x101 : Word).extractLsb' 4 2 = 0) ∧
    ((0x12 : Word).extractLsb' 0 4 = 0x2 ∧ (0x12 : Word).extractLsb' 4 28 ≠ 0) ∧
    ((0x80000003 : Word).extractLsb' 0 4 = 0x3 ∧ (0x80000003 : Word).extractLsb' 4 28 ≠ 0) := by decide

theorem witness_ValueIsThePositionalSum : ∀ x ∈ [0, 9, 5], x < Radix.ten.base := by decide

theorem witness_DigitsUniqueWithoutLeadingZero : 1 ≤ 58 ∧ (∀ x ∈ [1, 0], x < Radix.fiftyEight.base) ∧
    [1, 0].head? ≠ some 0 ∧ value Radix.fiftyEight.base [1, 0] = 58 ∧
    Radix.fiftyEight.base ^ (2 - 1) ≤ 58 ∧ 58 < Radix.fiftyEight.base ^ 2 := by decide

theorem witness_LeadingZeroRun : 2 ≤ [0, 0, 1].length ∧ ∀ x ∈ [0, 0, 1].take 2, x = 0 := by decide

/-- The longest input of each kind. -/
theorem witness_OutputLengthBounds : zeroRunLegal .twoFiftySix .fiftyEight true = true ∧
    (∀ x ∈ [0, 255, 1], x < Radix.twoFiftySix.base) ∧ zeroRunLegal .ten .ten false = true ∧
    (∀ x ∈ [9], x < Radix.ten.base) ∧ [0, 255, 1].length ≤ 256 := by decide

theorem witness_ShortInputLengths : [255, 255, 255, 255, 255, 255, 255, 255].head? ≠ some 0 ∧
    (∀ x ∈ [255, 255, 255, 255, 255, 255, 255, 255], x < 256) ∧ [1].head? ≠ some 0 ∧
    [57, 57, 57, 57, 57, 57, 57, 57].head? ≠ some 0 ∧ ∀ x ∈ [57, 57, 57, 57, 57, 57, 57, 57], x < 58 := by decide

/-! ### Witnesses: commands -/

theorem witness_ConvMeetsItsRule_lenRange : (small (loaded (List.replicate 9 0))).Legal ∧
    (small (loaded (List.replicate 9 0))).cfg.ibufDepth < operandLen (small (loaded (List.replicate 9 0))) := by decide

/-- spec/95_test_vectors.md C12; index 0 is the boundary case. -/
theorem witness_ConvMeetsItsRule_digitRange : (loaded [1, 10, 3]).Legal ∧ operandLen (loaded [1, 10, 3]) ≤ 256 ∧
    operandDigits (loaded [1, 10, 3]) = [1, 10, 3] ∧ Radix.ten.base ≤ [1, 10, 3][1] ∧ [1, 10, 3][0] < Radix.ten.base ∧
    operandDigits (loaded [58]) = [58] ∧ Radix.fiftyEight.base ≤ [58][0] := by decide

theorem witness_ConvMeetsItsRule_outOverflow :
    let s := small (loaded (List.replicate 8 255))
    s.Legal ∧ operandLen s ≤ s.cfg.ibufDepth ∧ (∀ x ∈ operandDigits s, x < Radix.twoFiftySix.base) ∧
    s.cfg.obufDepth < (digits Radix.ten.base (value Radix.twoFiftySix.base (operandDigits s))).length := by decide

/-- ILEN = IBUF_DEPTH, the longest legal input. -/
theorem witness_ConvMeetsItsRule_success :
    let s := small (loaded (List.replicate 8 57))
    s.Legal ∧ operandLen s = s.cfg.ibufDepth ∧ (∀ x ∈ operandDigits s, x < Radix.fiftyEight.base) ∧
    (convOutput Radix.fiftyEight.base Radix.twoFiftySix.base true (operandDigits s)).length ≤ s.cfg.obufDepth := by decide

theorem witness_ConvCompletesAtSpecDepths :
    let s := loaded [0, 0, 255]
    s.cfg.ibufDepth = 256 ∧ s.cfg.obufDepth = 1024 ∧ zeroRunLegal .twoFiftySix .fiftyEight true = true ∧
    operandLen s ≤ 256 ∧ ∀ x ∈ operandDigits s, x < Radix.twoFiftySix.base := by decide

theorem witness_EnciMeetsItsRule : (loadedInt 0).Legal ∧ (loadedInt 0xFFFFFFFFFFFFFFFF).Legal := by decide

theorem witness_DeciMeetsItsRule_lenRange :
    let s := small (loaded (List.replicate 9 0))
    s.Legal ∧ s.cfg.ibufDepth < operandLen s := by decide

theorem witness_DeciMeetsItsRule_digitRange : (loaded [1, 2, 58]).Legal ∧ operandLen (loaded [1, 2, 58]) ≤ 256 ∧
    operandDigits (loaded [1, 2, 58]) = [1, 2, 58] ∧ 58 ≤ [1, 2, 58][2] ∧ ∀ j < 2, [1, 2, 58].getD j 0 < 58 := by decide

/-- I6: one more than the largest legal value. -/
theorem witness_DeciMeetsItsRule_intOverflow :
    let s := loaded [42, 47, 30, 11, 32, 37, 36, 15, 38, 28, 24]
    s.Legal ∧ operandLen s ≤ s.cfg.ibufDepth ∧ (∀ x ∈ operandDigits s, x < 58) ∧ 2 ^ 64 = value 58 (operandDigits s) := by
  decide

/-- I5: the largest legal value; I7: the empty input. -/
theorem witness_DeciMeetsItsRule_success :
    let s := loaded [42, 47, 30, 11, 32, 37, 36, 15, 38, 28, 23]
    s.Legal ∧ operandLen s ≤ s.cfg.ibufDepth ∧ (∀ x ∈ operandDigits s, x < 58) ∧
    value 58 (operandDigits s) = 2 ^ 64 - 1 ∧ operandLen (loaded []) = 0 := by decide

theorem witness_ErrorsArePrecise : State.reset.busy = false ∧
    ∃ t, exec (decode 0) (hostAccess (wr 0x010 0) State.reset) = .next t ∧ t.ecode ≠ .noError :=
  ⟨by decide, exists_next (by decide)⟩

/-- Two errors apply in each of the first three: ILLEGAL_CMD over the length, the length over the digits, and the
digits over the value. -/
theorem witness_ErrorPriority :
    let long := small (loaded (List.replicate 9 58))
    let bad := loaded (List.replicate 12 58)
    let big := loaded (List.replicate 11 57)
    long.Legal ∧ bad.Legal ∧ big.Legal ∧
    (∃ t, exec (.illegal 0) long = .next t ∧ t.ecode = .illegalCmd) ∧
    (∃ t, exec .deci long = .next t ∧ t.ecode = .lenRange) ∧ long.cfg.ibufDepth < operandLen long ∧
    (∃ t, exec .deci bad = .next t ∧ t.ecode = .digitRange) ∧ operandLen bad ≤ bad.cfg.ibufDepth ∧
    (∃ x ∈ operandDigits bad, 58 ≤ x) ∧
    (∃ t, exec .deci big = .next t ∧ t.ecode = .intOverflow) ∧ operandLen big ≤ big.cfg.ibufDepth ∧
    ∀ x ∈ operandDigits big, x < 58 :=
  ⟨by decide, by decide, by decide, exists_next (by decide), exists_next (by decide), by decide, exists_next (by decide),
    by decide, by decide, exists_next (by decide), by decide, by decide⟩

theorem witness_OutOverflowExactlyWhenTooLong :
    let s := small (loaded (List.replicate 8 255))
    let u := loaded [1, 0]
    (s.Legal ∧ operandLen s ≤ s.cfg.ibufDepth ∧ (∀ x ∈ operandDigits s, x < Radix.twoFiftySix.base) ∧
      ∃ t, exec (.conv .twoFiftySix .ten false) s = .next t ∧ t.ecode = .outOverflow) ∧
    (u.Legal ∧ zeroRunLegal .twoFiftySix .fiftyEight true = true ∧ u.cfg.ibufDepth = 256 ∧ u.cfg.obufDepth = 1024 ∧
      ∃ t, exec (.conv .twoFiftySix .fiftyEight true) u = .next t ∧ t.ecode = .noError) ∧
    ∃ t, exec .enci s = .next t ∧ t.ecode = .noError :=
  ⟨⟨by decide, by decide, by decide, exists_next (by decide)⟩,
    ⟨by decide, by decide, by decide, by decide, exists_next (by decide)⟩, exists_next (by decide)⟩

/-- Z1, and Z3 with its empty stripped input. -/
theorem witness_ZeroRunRestored :
    let s := loaded [0, 0, 1]
    let u := loaded [0, 0, 0]
    s.Legal ∧ operandLen s ≤ s.cfg.ibufDepth ∧ (∀ x ∈ operandDigits s, x < Radix.twoFiftySix.base) ∧
    lz (operandDigits s) + (digits Radix.fiftyEight.base
      (value Radix.twoFiftySix.base ((operandDigits s).drop (lz (operandDigits s))))).length ≤ s.cfg.obufDepth ∧
    u.Legal ∧ operandLen u ≤ u.cfg.ibufDepth ∧ (operandDigits u).drop (lz (operandDigits u)) = [] := by decide

theorem witness_ZeroPreservation :
    let s := loaded [0, 0, 1]
    s.Legal ∧ operandLen s ≤ s.cfg.ibufDepth ∧ (∀ i < 2, operandEntry s i = 0) ∧ 2 < operandLen s ∧
    operandEntry s 2 ≠ 0 ∧ operandEntry (loaded [1]) 0 ≠ 0 ∧
    ∃ t, exec (.conv .twoFiftySix .fiftyEight true) s = .next t ∧ t.ecode = .noError :=
  ⟨by decide, by decide, by decide, by decide, by decide, by decide, exists_next (by decide)⟩

/-- C6. -/
theorem witness_PlainConvDropsLeadingZeros :
    let s := loaded [0, 0, 1]
    s.Legal ∧ operandLen s ≤ s.cfg.ibufDepth ∧ (∀ x ∈ operandDigits s, x < Radix.twoFiftySix.base) ∧
    (digits Radix.fiftyEight.base (value Radix.twoFiftySix.base (operandDigits s))).length ≤ s.cfg.obufDepth := by decide

/-- C1. -/
theorem witness_SameRadixConvStripsOnly :
    let s := loaded [0, 1, 2, 3]
    s.Legal ∧ operandLen s ≤ s.cfg.ibufDepth ∧ operandLen s ≤ s.cfg.obufDepth ∧
    ∀ x ∈ operandDigits s, x < Radix.ten.base := by decide

/-- V2 and Z11. -/
theorem witness_EncodeThenDecodeReturnsBytes :
    let s := loaded [0, 0, 1, 2, 3, 4, 5, 6]
    let u := loaded [0, 0, 29, 6, 19, 35, 26, 56, 6]
    s.Legal ∧ operandLen s ≤ s.cfg.ibufDepth ∧ u.cfg = s.cfg ∧
    ∃ t, exec (.conv .twoFiftySix .fiftyEight true) s = .next t ∧ t.ecode = .noError ∧
      t.olen.toNat ≤ s.cfg.ibufDepth ∧ operandLen u = t.olen.toNat ∧
      ∀ i < t.olen.toNat, operandEntry u i = t.obufEntry i :=
  ⟨by decide, by decide, by decide, exists_next (by decide)⟩

/-- I3 and, through the empty sequence, I1. -/
theorem witness_EncodeThenDecodeReturnsInteger :
    (loadedInt 3600).Legal ∧
    (∃ t, exec .enci (loadedInt 3600) = .next t ∧ t.olen.toNat ≤ (loadedInt 3600).cfg.ibufDepth ∧ (loaded [1, 4, 4]).cfg = (loadedInt 3600).cfg ∧
      operandLen (loaded [1, 4, 4]) = t.olen.toNat ∧
      ∀ i < t.olen.toNat, operandEntry (loaded [1, 4, 4]) i = t.obufEntry i) ∧
    ∃ t, exec .enci (loadedInt 0) = .next t ∧ operandLen (loaded []) = t.olen.toNat :=
  ⟨by decide, exists_next (by decide), exists_next (by decide)⟩

/-- Two states that differ in everything a command may not depend on. -/
theorem witness_CommandsArePureFunctions :
    let s := loaded [1, 0]
    let u := running 0x91 0 [.hardReset]
      { loaded [1, 0] with ie := true, err := true, olen := 7, zrun := 5, obuf := [(0, 9)] }
    u.cfg = s.cfg ∧ operandLen u = operandLen s ∧ (∀ j < operandLen s, operandEntry u j = operandEntry s j) ∧
    operandInt u = operandInt s ∧
    (∃ t, exec (.conv .fiftyEight .twoFiftySix false) s = .next t ∧ t.ecode = .noError) ∧
    ∃ v, exec (.conv .fiftyEight .twoFiftySix false) u = .next v ∧ v.ecode = .noError :=
  ⟨by decide, by decide, by decide, by decide, exists_next (by decide), exists_next (by decide)⟩

/-- The largest magnitude of the least block. -/
theorem witness_AccumulatorNeverOverflows :
    let s := small (loaded (List.replicate 8 255))
    s.Legal ∧ operandLen s ≤ s.cfg.ibufDepth ∧ ∀ x ∈ operandDigits s, x < Radix.twoFiftySix.base := by decide

/-! ### Witnesses: host accesses -/

/-- The last word of each window. -/
theorem witness_BufferWindowReads : State.reset.Legal ∧
    ((0x10FC : Offset).toNat = 0x1000 + 4 * 63 ∧ 63 < State.reset.cfg.ibufDepth / 4) ∧
    ((0x23FC : Offset).toNat = 0x2000 + 4 * 255 ∧ 255 < State.reset.cfg.obufDepth / 4) := by decide

/-- Both ends of each reserved range. -/
theorem witness_ReservedOffsets : State.reset.Legal ∧
    (∀ off ∈ [(0x002C : Offset), 0x0FFC], off.toNat % 4 = 0 ∧ 0x002C ≤ off.toNat ∧ off.toNat < 0x1000) ∧
    (∀ off ∈ [(0x1100 : Offset), 0x1FFC], off.toNat % 4 = 0 ∧ 0x1000 + State.reset.cfg.ibufDepth ≤ off.toNat ∧
      off.toNat < 0x2000) ∧
    (∀ off ∈ [(0x2400 : Offset), 0x3FFC], off.toNat % 4 = 0 ∧ 0x2000 + State.reset.cfg.obufDepth ≤ off.toNat) := by
  refine ⟨by decide, ?_⟩; simp [State.reset, Config.ofSpec]

theorem witness_IgnoredWrites : State.reset.Legal ∧
    (∀ off ∈ [(0x2000 : Offset), 0x23FC], off.toNat % 4 = 0 ∧ 0x2000 ≤ off.toNat ∧
      off.toNat < 0x2000 + State.reset.cfg.obufDepth) ∧
    ∀ off ∈ [(0x000 : Offset), 0x004, 0x018, 0x01C, 0x028, 0x02C, 0x0FFC, 0x1100, 0x1FFC, 0x2400, 0x3FFC],
      off.toNat % 4 = 0 := by
  refine ⟨by decide, ?_⟩; simp [State.reset, Config.ofSpec]

theorem witness_CommandAccept : State.reset.busy = false := by decide

theorem witness_CommandWhileBusyDropped : (running 0x2 1 [] State.reset).busy = true := by decide

theorem witness_InputLock : (running 0x2 1 [] State.reset).Legal ∧ (running 0x2 1 [] State.reset).busy = true ∧
    State.reset.Legal ∧ State.reset.busy = false ∧
    (0x10FC : Offset).toNat = 0x1000 + 4 * 63 ∧ 63 < State.reset.cfg.ibufDepth / 4 := by decide

/-- The last word of IBUF, and the first one beyond it. -/
theorem witness_IbufWordWrite : State.reset.Legal ∧ State.reset.busy = false ∧
    (running 0x2 1 [] State.reset).Legal ∧ (running 0x2 1 [] State.reset).busy = true ∧
    ((0x10FC : Offset).toNat = 0x1000 + 4 * 63 ∧ (0x10FC : Offset).toNat < 0x2000 ∧ 63 < State.reset.cfg.ibufDepth / 4) ∧
    ((0x1100 : Offset).toNat = 0x1000 + 4 * 64 ∧ (0x1100 : Offset).toNat < 0x2000 ∧
      State.reset.cfg.ibufDepth / 4 ≤ 64) := by decide

theorem witness_CtrlWriteAndSoftReset : (0x3 : Word).getLsbD 1 = true ∧ (0x1 : Word).getLsbD 1 = false := by decide

theorem witness_BusErrorHasNoEffect :
    (({ off := 0x010, width := .bits16, kind := .read } : Access).width ≠ .bits32) ∧ (rd 0x1002).off.toNat % 4 ≠ 0 := by
  decide

theorem witness_WindowAddresses :
    let c := { Config.ofSpec with base := 0x4000 }
    0x3FFF < c.base ∧ c.base + 0x3FFF < 0x8000 ∧ offsetOf c 0x4000 = some 0 ∧ offsetOf c 0x7FFF = some 0x3FFF := by decide

theorem witness_HardResetValues : State.reset = State.reset ∧
    ∃ s u, u = running 0x161 3 [] (loaded [1, 0]) ∧ s = applyInput .hardReset u := ⟨rfl, _, _, rfl, rfl⟩

theorem witness_ResetsAreClean : (0x2 : Word).getLsbD 1 = true := by decide

/-! ### Witnesses: the machine as a whole -/

/-- ENCI of 58, accepted with 2 host steps of latency, and a host that polls STATUS. -/
def busyState : State := running 0x2 2 [.poll 0x00C 1 0] (loadedInt 58)

theorem witness_StepRunsTheLatchedCommand :
    let s := running 0x2 0 [.hardReset] (loadedInt 58)
    let u := running 0x2 7 [] (loadedInt 58)
    s.Legal ∧ s.lcmd.isSome = true ∧ s.latency = 0 ∧ u.Legal ∧ u.lcmd.isSome = true ∧ u.inputs = [] := by decide

theorem witness_StepTakesTheNextInput : State.reset.Legal ∧ State.reset.lcmd = none ∧ State.reset.inputs = [] ∧
    busyState.Legal ∧ busyState.inputs = [.poll 0x00C 1 0] ∧ busyState.latency ≠ 0 := by decide

theorem witness_FetchedWordRunsNext : State.reset.Legal ∧ decodeTableWord 32 0xFFFFFFFF = some (.illegal 0xFFFFFFFF) := by
  decide

theorem witness_StepKeepsInvariant : busyState.Inv ∧ ∃ t, step busyState = .next t ∧ t.busy = true := by
  refine ⟨⟨by decide, by decide, by decide, by decide, by decide, ?_, by decide, by decide, by decide, by decide,
    by decide⟩, exists_next (by decide)⟩
  intro c hc
  cases hc
  decide

theorem witness_EveryStepGoesOn : State.reset.Legal ∧ busyState.Legal := by decide

/-- The completion, a soft reset, a hard reset, and an accept. -/
theorem witness_PhaseChanges :
    (∃ t, step (running 0x2 0 [] (loadedInt 58)) = .next t ∧ t.phase = .idle) ∧
    (∃ t, step (running 0x2 1 [Input.writes 0x008 2] (loadedInt 58)) = .next t ∧ t.phase = .idle) ∧
    (∃ t, step (running 0x2 1 [.hardReset] (loadedInt 58)) = .next t ∧ t.phase = .idle) ∧
    (∃ t, step (hearing [Input.writes 0x010 2] (loadedInt 58)) = .next t ∧ t.phase = .run) ∧
    busyState.phase = .run ∧ State.reset.phase = .idle :=
  ⟨exists_next (by decide), exists_next (by decide), exists_next (by decide), exists_next (by decide), by decide,
    by decide⟩

theorem witness_RunningCommandInputsStay : busyState.busy = true ∧ ∃ t, step busyState = .next t ∧ t.busy = true :=
  ⟨by decide, exists_next (by decide)⟩

theorem witness_NothingCommittedWhileRunning :
    let s := running 0x2 1 [Input.writes 0x014 5] (loadedInt 58)
    s.busy = true ∧ ∃ t, step s = .next t ∧ t.busy = true := ⟨by decide, exists_next (by decide)⟩

/-- The last entry of IBUF, and the first of OBUF. -/
theorem witness_BufferWriters :
    let s := hearing [Input.writes 0x1004 0x09000000] (small (loaded (List.replicate 8 1)))
    let u := running 0x2 0 [] { loadedInt 58 with obuf := [(0, 7)] }
    (s.Legal ∧ ∃ t, step s = .next t ∧ t.ibufEntry 7 ≠ s.ibufEntry 7) ∧
    (u.Legal ∧ ∃ t, step u = .next t ∧ t.obufEntry 0 ≠ u.obufEntry 0) :=
  ⟨⟨by decide, exists_next (by decide)⟩, ⟨by decide, exists_next (by decide)⟩⟩

theorem witness_BufferWriters_noHardReset : ¬ (running 0x2 0 [] (loadedInt 58)).Takes .hardReset ∧
    ¬ (hearing [Input.writes 0x1004 0] State.reset).Takes .hardReset := by
  constructor <;> (unfold State.Takes; decide)

theorem witness_ResultRegisterWriters :
    (∃ t, step (running 0x2 0 [] (loadedInt 58)) = .next t ∧ t.olen ≠ 0) ∧
    (∃ t, step (running 0x91 0 [] (loaded [0, 1])) = .next t ∧ t.zrun ≠ 0) ∧
    (∃ t, step (running 0x3 0 [] (loaded [1, 0])) = .next t ∧ t.nval ≠ (loaded [1, 0]).nval) ∧
    (∃ t, step (hearing [Input.writes 0x020 5] State.reset) = .next t ∧ t.nval ≠ State.reset.nval) ∧
    (∃ t, step (hearing [Input.writes 0x024 5] State.reset) = .next t ∧ t.nval ≠ State.reset.nval) :=
  ⟨exists_next (by decide), exists_next (by decide), exists_next (by decide), exists_next (by decide),
    exists_next (by decide)⟩

theorem witness_ResultRegisterWriters_noReset :
    ∀ i, (hearing [Input.writes 0x020 5] State.reset).Takes i → i.isReset = false := by
  rintro i ⟨-, h⟩
  cases h
  decide

theorem witness_ErrIsSticky :
    (∃ t, step (running 0x0 0 [] State.reset) = .next t ∧ t.ecode ≠ .noError) ∧
    (∃ t, step (running 0x2 0 [] { State.reset with err := true }) = .next t ∧ t.ecode = .noError) ∧
    (∃ t, step (hearing [Input.writes 0x00C 4] { State.reset with err := true }) = .next t ∧ t.err = false) ∧
    (∃ t, step (hearing [Input.writes 0x008 2] { State.reset with err := true }) = .next t ∧ t.err = false) ∧
    (running 0x0 0 [] State.reset).busy = true ∧ (running 0x0 0 [] State.reset).completionDue = true :=
  ⟨exists_next (by decide), exists_next (by decide), exists_next (by decide), exists_next (by decide), by decide,
    by decide⟩

/-- A dropped write to CMD, one to the last word of IBUF, and the clearing of OVR. -/
theorem witness_OvrIsSticky :
    let s := running 0x2 1 [Input.writes 0x010 3] State.reset
    let u := running 0x2 1 [Input.writes 0x10FC 3] State.reset
    let v := hearing [Input.writes 0x00C 8] { State.reset with ovr := true }
    (s.Legal ∧ s.ovr = false ∧ s.busy = true ∧ ∃ t, step s = .next t ∧ t.ovr = true) ∧
    (u.Legal ∧ (0x10FC : Offset).toNat % 4 = 0 ∧ 0x1000 ≤ (0x10FC : Offset).toNat ∧
      (0x10FC : Offset).toNat < 0x1000 + u.cfg.ibufDepth ∧ u.Takes (Input.writes 0x10FC 3) ∧
      ∃ t, step u = .next t ∧ t.ovr = true) ∧
    (v.Legal ∧ v.ovr = true ∧ ∃ t, step v = .next t ∧ t.ovr = false) := by
  refine ⟨⟨by decide, by decide, by decide, exists_next (by decide)⟩, ⟨by decide, by decide, by decide, by decide, ?_,
    exists_next (by decide)⟩, by decide, by decide, exists_next (by decide)⟩
  unfold State.Takes
  decide

theorem witness_InterruptLevel :
    let on := { State.reset with ie := true, done := true }
    (∃ t, step (running 0x2 0 [] { State.reset with ie := true }) = .next t ∧ t.irq = true) ∧
    (∃ t, step (hearing [Input.writes 0x008 1] { State.reset with done := true }) = .next t ∧ t.irq = true) ∧
    on.irq = true ∧
    (∃ t, step (hearing [Input.writes 0x00C 2] on) = .next t ∧ t.irq = false) ∧
    (∃ t, step (hearing [Input.writes 0x008 0] on) = .next t ∧ t.irq = false) ∧
    (∃ t, step (hearing [Input.writes 0x010 2] on) = .next t ∧ t.irq = false) ∧
    (∃ t, step (hearing [.hardReset] on) = .next t ∧ t.irq = false) :=
  ⟨exists_next (by decide), exists_next (by decide), by decide, exists_next (by decide), exists_next (by decide),
    exists_next (by decide), exists_next (by decide)⟩

theorem witness_InterruptLevel_clears :
    (hearing [Input.writes 0x00C 2] State.reset).Takes (Input.writes 0x00C 2) ∧
    (hearing [Input.writes 0x010 2] State.reset).Takes (Input.writes 0x010 2) ∧ State.reset.busy = false ∧
    (hearing [Input.writes 0x008 2] State.reset).Takes (Input.writes 0x008 2) ∧
    (Input.writes 0x008 2).isReset = true ∧ Input.isReset .hardReset = true := by
  unfold State.Takes
  decide

theorem witness_RunningCommandCompletes : busyState.Legal ∧ busyState.lcmd.isSome = true ∧
    ∀ i ∈ busyState.inputs, i.isReset = false := by decide

theorem witness_RacesInBothOrders :
    let s (k : Nat) (i : Input) := running 0x2 k [i] (loadedInt 58)
    (∀ k ≤ 1, (s k (Input.writes 0x010 3)).Legal ∧ (s k (Input.writes 0x010 3)).lcmd.isSome = true ∧
      (s k (Input.writes 0x010 3)).latency = k) ∧
    (∀ k ≤ 1, (s k (Input.writes 0x00C 2)).Legal ∧ (s k (Input.writes 0x00C 2)).lcmd.isSome = true) ∧
    (0x2 : Word).getLsbD 1 = true ∧
    (∀ k ≤ 1, (s k (Input.writes 0x008 2)).Legal ∧ (s k (Input.writes 0x008 2)).lcmd.isSome = true) := by decide

/-- A poll that ends, and one that goes on. -/
theorem witness_PollRound : (0x00C : Offset).toNat % 4 = 0 ∧
    (∃ v, (hostAccess (rd 0x00C) State.reset).resp = .data v ∧ v &&& 1 = 0) ∧
    ∃ v, (hostAccess (rd 0x00C) busyState).resp = .data v ∧ v &&& 1 ≠ 0 :=
  ⟨by decide, ⟨0, by decide⟩, ⟨1, by decide⟩⟩

end Sys2Proof.Tests
end

section
/-! SUPPORT. What a step does to each part of the state (spec/10_state.md): one event per step, and which of the host's
writes reach which field. -/

namespace Sys2Proof.Proofs

open Sys2Proof Sys2Proof.Machine Sys2Proof.Laws

/-! ### The events of a step -/

theorem not_completes_of_takes {s : State} {i : Input} (h : s.Takes i) : ¬ s.Completes := h.1

theorem takes_unique {s : State} {i j : Input} (hi : s.Takes i) (hj : s.Takes j) : j = i :=
  Option.some.inj (hj.2.symm.trans hi.2)

/-- What a step can be: a failed completion, a successful one with its result writes (R145), an input that reaches no
field of the block (reads, polls, bus errors, ignored writes, idling), the reset input, or a write of R142 to R148. -/
inductive StepEvent (s : State) : State → Prop
  | failed (hc : s.Completes) (e : CmdError) (he : e.code ≠ .noError) : StepEvent s (raiseError e s)
  | output (hc : s.Completes) (c : Latched) (hl : s.lcmd = some c)
      (hi : (∃ sr tr z, decode c.word = .conv sr tr z) ∨ decode c.word = .enci)
      (out : List Nat) (k : Nat) (ho : out.length ≤ s.cfg.obufDepth) : StepEvent s (completeOk (storeOutput out k s))
  | integer (hc : s.Completes) (c : Latched) (hl : s.lcmd = some c) (hi : decode c.word = .deci) (N k : Nat) :
      StepEvent s (completeOk (storeInteger N k s))
  | silent (hn : ¬ s.Completes) (l : List Input) (n : Nat) (r : BusResponse) :
      StepEvent s { s with inputs := l, latency := n, resp := r }
  | hardReset (ht : s.Takes .hardReset) (rest : List Input) (n : Nat) :
      StepEvent s (hardReset { s with inputs := rest, latency := n })
  | write (off : Offset) (v : Word) (ht : s.Takes (Input.writes off v)) (ho : off.toNat % 4 = 0) (rest : List Input)
      (n : Nat) (u : State) (hw : WriteEffect off v { s with inputs := rest, latency := n } u) :
      StepEvent s (respond .written u)

/-- A due completion is a failed or a successful one. -/
theorem exec_event {s t : State} {c : Latched} (hc : s.Completes) (hl : s.lcmd = some c)
    (h : exec (decode c.word) s = .next t) : StepEvent s t := by
  rcases exec_cases h with ⟨e, ⟨he, -⟩, rfl⟩ | ⟨u, -, rfl, ⟨out, k, rfl, ho, hi⟩ | ⟨hi, -, -, -, rfl⟩⟩
  · exact .failed hc e he
  · refine .output hc c hl ?_ out k ho
    exact hi.imp (fun ⟨sr, tr, z, hi, _⟩ => ⟨sr, tr, z, hi⟩) And.left
  · exact .integer hc c hl hi _ _

theorem step_event {s t : State} (h : step s = .next t) : StepEvent s t := by
  obtain ⟨-, ⟨c, hl, hc, he⟩ | ⟨hn, i, rest, -, ht, rfl⟩ | ⟨hn, -, -, rfl⟩⟩ := step_cases h
  · exact exec_event hc hl he
  · rcases applyInput_cases i { s with inputs := rest, latency := s.latency - 1 } with
      ⟨r, l, ha, -⟩ | ⟨rfl, ha⟩ | ⟨off, v, rfl, ho, u, ha, hw⟩
    · rw [ha]; exact .silent hn l _ r
    · rw [ha]; exact .hardReset ht rest _
    · rw [ha]; exact .write off v ht ho rest _ u hw
  · exact .silent hn _ _ _

/-- A step that takes an input applies it. -/
theorem step_of_takes {s t : State} {i : Input} (h : step s = .next t) (ht : s.Takes i) :
    ∃ rest n, t = applyInput i { s with inputs := rest, latency := n } := by
  obtain ⟨-, ⟨_, _, hc, _⟩ | ⟨-, j, rest, -, hj, rfl⟩ | ⟨-, -, hi, -⟩⟩ := step_cases h
  · exact absurd hc (not_completes_of_takes ht)
  · exact ⟨rest, _, by rw [takes_unique ht hj]⟩
  · obtain ⟨-, ht⟩ := ht
    rw [hi] at ht
    cases ht

/-! ### What a write reaches -/

/-- A CTRL write is a soft reset with IE stored after it, or it stores IE and nothing else (R147, R191). -/
theorem writeCtrl_cases (v : Word) (s : State) :
    ((Input.writes 0x008 v).isReset = true ∧ writeCtrl v s = { softReset s with ie := v.getLsbD 0 }) ∨
    writeCtrl v s = { s with ie := v.getLsbD 0 } := by
  cases hv : v.getLsbD 1 with
  | true => exact .inl ⟨isReset_ctrl hv, by simp [writeCtrl, hv]⟩
  | false => exact .inr (writeCtrl_plain hv s)

/-- The offsets whose writes are dropped while BUSY = 1 (R143, R144). -/
def Locked (c : Config) (off : Offset) : Prop :=
  off ∈ [(0x010 : Offset), 0x014, 0x020, 0x024] ∨ (0x1000 ≤ off.toNat ∧ off.toNat < 0x1000 + c.ibufDepth)

section
variable {off : Offset} {v : Word} {s u : State} (hw : WriteEffect off v s u)
include hw

/-- R52: a write changes the engine phase as a soft reset or as an accept. -/
theorem writeEffect_phase : u.phase = s.phase ∨ (u.phase = .idle ∧ (Input.writes off v).isReset = true) ∨
    (u.phase = .run ∧ off = 0x010) := by
  cases hw with
  | ctrl ho =>
    subst ho
    rcases writeCtrl_cases v s with ⟨hr, h⟩ | h <;> rw [h]
    · exact .inr (.inl ⟨rfl, hr⟩)
    · exact .inl rfl
  | accept ho => exact .inr (.inr ⟨by simp [State.phase], ho⟩)
  | _ => exact .inl rfl

/-- R42: no write reaches OBUF. -/
theorem writeEffect_obufEntry (i : Nat) : u.obufEntry i = s.obufEntry i := by
  apply obufEntry_congr <;> cases hw <;> simp

/-- R41: IBUF is written by word writes only, while BUSY = 0. -/
theorem writeEffect_ibufEntry (i : Nat) : u.ibufEntry i = s.ibufEntry i ∨ (s.busy = false ∧
    off.toNat = 0x1000 + 4 * (i / 4) ∧ off.toNat < 0x1000 + s.cfg.ibufDepth) := by
  cases hw with
  | ibuf w ho hd hb =>
    rw [storeIbufWord_ibufEntry]
    split
    · exact .inr ⟨hb, by omega, hd⟩
    · exact .inl rfl
  | _ => exact .inl (ibufEntry_congr (by simp) (by simp) i)

/-- R37, R38, R39: a write that is no reset leaves OLEN and ZRUN alone, and reaches NVAL through its halves only. -/
theorem writeEffect_results (hr : (Input.writes off v).isReset = false) : u.olen = s.olen ∧ u.zrun = s.zrun ∧
    (u.nval = s.nval ∨ (s.busy = false ∧ (off = 0x020 ∨ off = 0x024))) := by
  cases hw with
  | ctrl ho =>
    subst ho
    rcases writeCtrl_cases v s with ⟨h, -⟩ | h
    · rw [hr] at h; cases h
    · rw [h]; exact ⟨rfl, rfl, .inl rfl⟩
  | nvalLo ho hb => exact ⟨rfl, rfl, .inr ⟨hb, .inl ho⟩⟩
  | nvalHi ho hb => exact ⟨rfl, rfl, .inr ⟨hb, .inr ho⟩⟩
  | _ => simp [State.nval]

/-- R31: a write clears ERR as a soft reset or as a STATUS write with bit 2 set, and never sets it. -/
theorem writeEffect_err : u.err = s.err ∨ (u.err = false ∧
    ((Input.writes off v).isReset = true ∨ (off = 0x00C ∧ v.getLsbD 2 = true))) := by
  cases hw with
  | ctrl ho =>
    subst ho
    rcases writeCtrl_cases v s with ⟨hr, h⟩ | h <;> rw [h]
    · exact .inr ⟨rfl, .inl hr⟩
    · exact .inl rfl
  | status ho =>
    cases hv : v.getLsbD 2 with
    | true => exact .inr ⟨by rw [acknowledge_err, hv]; simp, .inr ⟨ho, rfl⟩⟩
    | false => exact .inl (by rw [acknowledge_err, hv]; simp)
  | _ => exact .inl (by simp)

/-- R32: a write sets OVR by being dropped, and clears it as a soft reset or as a STATUS write with bit 3 set. -/
theorem writeEffect_ovr : u.ovr = s.ovr ∨ (u.ovr = true ∧ s.busy = true ∧ Locked s.cfg off) ∨ (u.ovr = false ∧
    ((Input.writes off v).isReset = true ∨ (off = 0x00C ∧ v.getLsbD 3 = true))) := by
  cases hw with
  | ctrl ho =>
    subst ho
    rcases writeCtrl_cases v s with ⟨hr, h⟩ | h <;> rw [h]
    · exact .inr (.inr ⟨rfl, .inl hr⟩)
    · exact .inl rfl
  | status ho =>
    cases hv : v.getLsbD 3 with
    | true => exact .inr (.inr ⟨by rw [acknowledge_ovr, hv]; simp, .inr ⟨ho, rfl⟩⟩)
    | false => exact .inl (by rw [acknowledge_ovr, hv]; simp)
  | dropped hb ho => exact .inr (.inl ⟨rfl, hb, ho⟩)
  | _ => exact .inl (by simp)

end

/-- R143, R144: while BUSY = 1 an aligned write to a locked offset is dropped, and OVR records it. -/
theorem hostAccess_locked {s : State} {off : Offset} (v : Word) (hs : s.Legal) (hb : s.busy = true)
    (ho : off.toNat % 4 = 0) (hlock : Locked s.cfg off) :
    hostAccess (wr off v) s = respond .written (setOverrun s) := by
  rw [hostAccess_wr ho]
  congr 1
  rcases hlock with hreg | ⟨h1, h2⟩
  · simp only [List.mem_cons, List.not_mem_nil, or_false] at hreg
    rcases hreg with rfl | rfl | rfl | rfl <;>
      exact if_pos hb
  · have := (legal_iff s.cfg).mp hs
    rw [target_ibuf (w := (off.toNat - 0x1000) / 4) hs (by omega) (by omega)]
    exact if_pos hb

end Sys2Proof.Proofs
end

section
/-! SUPPORT. The obligations about what a step can change: the engine phase, the buffers, the result registers, and the
sticky flags. -/

namespace Sys2Proof.Proofs

open Sys2Proof Sys2Proof.Machine Sys2Proof.Laws

/-- Settles O50: the phase changes with LCMD, which a completion and a reset empty and an accept fills. -/
theorem phaseChanges : Obligations.PhaseChanges := by
  intro s t h
  refine ⟨fun hs ht => ?_, fun hs ht => ?_, fun hc => ?_⟩
  · cases step_event h with
    | failed hc | output hc | integer hc => exact .inl hc
    | silent => cases hs.symm.trans ht
    | hardReset hi => exact .inr ⟨_, hi, rfl⟩
    | write off v hi _ _ _ u hw =>
      rcases writeEffect_phase hw with hp | ⟨-, hr⟩ | ⟨hp, -⟩
      · cases (hp.trans hs).symm.trans ht
      · exact .inr ⟨_, hi, hr⟩
      · cases hp.symm.trans ht
  · cases step_event h with
    | failed | output | integer | hardReset => cases ht
    | silent => cases hs.symm.trans ht
    | write off v hi _ _ _ u hw =>
      rcases writeEffect_phase hw with hp | ⟨hp, -⟩ | ⟨-, rfl⟩
      · cases (hp.trans hs).symm.trans ht
      · cases hp.symm.trans ht
      · exact ⟨v, hi⟩
  · obtain ⟨⟨c, hl⟩, hd⟩ := (completes_iff s).mp hc
    have he := step_complete (step_cases h).1 hl hd
    obtain ⟨-, hidle, -⟩ := exec_frame (he.symm.trans h)
    exact ⟨(phase_eq_idle_iff t).mpr hidle, c, hl, he⟩

/-- Settles O53: only an IBUF word write reaches IBUF, and only the digits of a successful CONV or ENCI reach OBUF. -/
theorem bufferWriters : Obligations.BufferWriters := by
  intro s t hs h hnr
  have hlegal := (legal_iff s.cfg).mp hs
  cases step_event h with
  | failed | integer | silent => exact ⟨fun i hi => absurd rfl hi, fun i hi => absurd rfl hi⟩
  | hardReset hi => exact absurd hi hnr
  | output hc c hl hcmd out k ho =>
    refine ⟨fun i hi => absurd rfl hi, fun i hi => ⟨hc, rfl, ?_, c, hl, hcmd⟩⟩
    have hentry : (completeOk (storeOutput out k s)).obufEntry i = (storeDigits out s).obufEntry i := rfl
    rw [hentry, storeDigits_obufEntry] at hi
    by_cases hlt : i < out.length
    · rw [completeOk_olen, storeOutput_olen, BitVec.toNat_ofNat, Nat.mod_eq_of_lt (output_fits hs ho)]
      exact hlt
    · rw [dif_neg hlt] at hi
      exact absurd rfl hi
  | write off v ht hoff rest n u hw =>
    refine ⟨fun i hi => ?_, fun i hi => absurd (writeEffect_obufEntry hw i) hi⟩
    rcases writeEffect_ibufEntry hw i with he | ⟨hb, ho, hd⟩
    · exact absurd he hi
    · change off.toNat < 0x1000 + s.cfg.ibufDepth at hd
      exact ⟨hb, off, v, ht, ho, by omega⟩

/-- Settles O54: the result registers are the completions' to write, and NVAL the host's too while BUSY = 0. -/
theorem resultRegisterWriters : Obligations.ResultRegisterWriters := by
  intro s t h hnr
  cases step_event h with
  | failed | silent => exact ⟨fun hne => absurd rfl hne, fun hne => absurd rfl hne, fun hne => absurd rfl hne⟩
  | hardReset ht => cases hnr _ ht
  | output hc c hl hcmd =>
    exact ⟨fun _ => ⟨hc, rfl, c, hl, hcmd⟩, fun _ => ⟨hc, rfl⟩, fun hne => absurd rfl hne⟩
  | integer hc c hl hcmd =>
    exact ⟨fun hne => absurd rfl hne, fun _ => ⟨hc, rfl⟩, fun _ => .inl ⟨hc, rfl, c, hl, hcmd⟩⟩
  | write off v ht _ rest n u hw =>
    obtain ⟨holen, hzrun, hnval⟩ := writeEffect_results hw (hnr _ ht)
    refine ⟨fun hne => absurd holen hne, fun hne => absurd hzrun hne, fun hne => .inr ?_⟩
    rcases hnval with he | ⟨hb, rfl | rfl⟩
    · exact absurd he hne
    · exact ⟨hb, v, .inl ht⟩
    · exact ⟨hb, v, .inr ht⟩

/-- R31: at a completion ERR becomes 1 with an error code, and stays with none. -/
theorem completion_err {s t : State} (h : step s = .next t) (hc : s.Completes) :
    (t.ecode ≠ .noError ∧ t.err = true) ∨ (t.ecode = .noError ∧ t.err = s.err) := by
  cases step_event h with
  | failed _ e he => exact .inl ⟨he, rfl⟩
  | output | integer => exact .inr ⟨rfl, rfl⟩
  | silent hn => exact absurd hc hn
  | hardReset ht | write _ _ ht => exact absurd hc (not_completes_of_takes ht)

/-- R31: what else a step can do to ERR. -/
theorem step_err {s t : State} (h : step s = .next t) :
    t.err = s.err ∨ (t.err = true ∧ s.Completes ∧ t.ecode ≠ .noError) ∨ (t.err = false ∧
      ∃ i, s.Takes i ∧ (i.isReset = true ∨ ∃ v, i = Input.writes 0x00C v ∧ v.getLsbD 2 = true)) := by
  cases step_event h with
  | failed hc e he => exact .inr (.inl ⟨rfl, hc, he⟩)
  | output | integer | silent => exact .inl rfl
  | hardReset ht => exact .inr (.inr ⟨rfl, _, ht, .inl rfl⟩)
  | write off v ht _ _ _ u hw =>
    rcases writeEffect_err hw with he | ⟨he, hr | ⟨rfl, hv⟩⟩
    · exact .inl he
    · exact .inr (.inr ⟨he, _, ht, .inl hr⟩)
    · exact .inr (.inr ⟨he, _, ht, .inr ⟨v, rfl, hv⟩⟩)

/-- Settles O55: ERR is the failed completions' to set, and a successful one keeps it. -/
theorem errIsSticky : Obligations.ErrIsSticky := by
  intro s t h
  refine ⟨fun hc he => ?_, fun hc he => ?_, fun h1 h0 => ?_, fun h0 h1 => ?_⟩
  · rcases completion_err h hc with ⟨-, herr⟩ | ⟨hno, -⟩
    · exact herr
    · exact absurd hno he
  · rcases completion_err h hc with ⟨hne, -⟩ | ⟨-, herr⟩
    · exact absurd he hne
    · exact herr
  · rcases step_err h with he | ⟨he, -⟩ | ⟨-, hcause⟩
    · simp [he, h1] at h0
    · simp [he] at h0
    · exact hcause
  · rcases step_err h with he | ⟨-, hcause⟩ | ⟨he, -⟩
    · simp [he, h0] at h1
    · exact hcause
    · simp [he] at h1

/-- R32: what a step can do to OVR; no completion reaches it. -/
theorem step_ovr {s t : State} (h : step s = .next t) : t.ovr = s.ovr ∨
    (t.ovr = true ∧ s.busy = true ∧ ∃ off v, s.Takes (Input.writes off v) ∧ off.toNat % 4 = 0 ∧ Locked s.cfg off) ∨
    (t.ovr = false ∧
      ∃ i, s.Takes i ∧ (i.isReset = true ∨ ∃ v, i = Input.writes 0x00C v ∧ v.getLsbD 3 = true)) := by
  cases step_event h with
  | failed | output | integer | silent => exact .inl rfl
  | hardReset ht => exact .inr (.inr ⟨rfl, _, ht, .inl rfl⟩)
  | write off v ht ho _ _ u hw =>
    rcases writeEffect_ovr hw with he | ⟨he, hb, hlock⟩ | ⟨he, hr | ⟨rfl, hv⟩⟩
    · exact .inl he
    · exact .inr (.inl ⟨he, hb, off, v, ht, ho, hlock⟩)
    · exact .inr (.inr ⟨he, _, ht, .inl hr⟩)
    · exact .inr (.inr ⟨he, _, ht, .inr ⟨v, rfl, hv⟩⟩)

/-- Settles O56: OVR is the dropped writes' to set, and every write that meets the lock is dropped. -/
theorem ovrIsSticky : Obligations.OvrIsSticky := by
  intro s t hs h
  refine ⟨fun h0 h1 => ?_, fun hb ⟨off, v, ht, ho, hlock⟩ => ?_, fun h1 h0 => ?_⟩
  · rcases step_ovr h with he | ⟨-, hcause⟩ | ⟨he, -⟩
    · simp [he, h0] at h1
    · exact hcause
    · simp [he] at h1
  · obtain ⟨rest, n, rfl⟩ := step_of_takes h ht
    have hdrop := hostAccess_locked (s := { s with inputs := rest, latency := n }) v hs hb ho hlock
    exact congrArg State.ovr hdrop
  · rcases step_ovr h with he | ⟨he, -⟩ | ⟨-, hcause⟩
    · simp [he, h1] at h0
    · simp [he] at h0
    · exact hcause

end Sys2Proof.Proofs
end

section
/-! SUPPORT. The accumulator's bound (R50), the registers' reads (R24 to R40), the layout of STATUS (R34), and the
invariant at reset. -/

namespace Sys2Proof.Proofs

open Sys2Proof Sys2Proof.Machine Sys2Proof.Laws

/-! ### The accumulator -/

/-- R50: digits below any of the three radices, at most `n` of them, have a value below 256^n. -/
theorem value_lt_pow_bytes (r : Radix) {d : List Nat} {n : Nat} (hd : ∀ x ∈ d, x < r.base) (hn : d.length ≤ n) :
    value r.base d < 256 ^ n :=
  calc value r.base d < r.base ^ d.length := value_lt _ _ hd
    _ ≤ 256 ^ d.length := Nat.pow_le_pow_left (base_le r) _
    _ ≤ 256 ^ n := Nat.pow_le_pow_right (by decide) hn

/-- R6: ACC_BITS has 8 bits for each entry of IBUF. -/
theorem pow_bytes_le_acc {c : Config} (hc : c.legal = true) : 256 ^ c.ibufDepth ≤ 2 ^ c.accBits := by
  obtain ⟨-, -, -, -, -, -, hacc, -⟩ := (legal_iff c).mp hc
  calc 256 ^ c.ibufDepth = 2 ^ (8 * c.ibufDepth) := (pow_mul 2 8 c.ibufDepth).symm
    _ ≤ 2 ^ c.accBits := Nat.pow_le_pow_right (by decide) hacc

/-- Settles O27: a head of the input is no longer than the input. -/
theorem accumulatorNeverOverflows : Obligations.AccumulatorNeverOverflows := by
  intro r s hs hlen hd j
  have hhead : ((operandDigits s).take j).length ≤ s.cfg.ibufDepth := by
    rw [List.length_take, operandDigits_length]; omega
  have hval := value_lt_pow_bytes r (fun x hx => hd x (List.mem_of_mem_take hx)) hhead
  obtain ⟨-, -, -, -, -, -, -, hint, -⟩ := (legal_iff s.cfg).mp hs
  exact ⟨hval, hval.trans_le (pow_bytes_le_acc hs),
    (operandInt_lt s).trans_le (Nat.pow_le_pow_right (by decide) hint)⟩

/-! ### Register reads -/

section
variable {off : Offset} {r : Reg} {s : State} (ho : off.toNat % 4 = 0) (ht : target s.cfg off = .reg r)
include ho ht

theorem hostAccess_rd_reg {v : Word} (hv : readReg r s = v) : hostAccess (rd off) s = { s with resp := .data v } := by
  rw [hostAccess_rd ho, ht, ← hv]; rfl

theorem hostAccess_wr_ignored {v : Word} (hv : writeReg r v s = s) :
    hostAccess (wr off v) s = { s with resp := .written } := by
  rw [hostAccess_wr ho, ht]; exact congrArg (respond .written) hv

end

theorem ctrlWord_eq (s : State) : s.ctrlWord = if s.ie = true then 1 else 0 := by
  unfold State.ctrlWord; cases s.ie <;> rfl

theorem halfWord_eq (h : Half) : halfWord h = h.setWidth 32 := (BitVec.setWidth_eq_append (by decide)).symm

/-- Settles O28: each of the eleven offsets is its register's, and the block ignores writes to the first two. -/
theorem registerReads : Obligations.RegisterReads := by
  intro s
  exact ⟨hostAccess_rd_reg (r := .id) (by decide) rfl rfl,
    hostAccess_rd_reg (r := .param) (by decide) rfl rfl,
    hostAccess_rd_reg (r := .ctrl) (by decide) rfl (ctrlWord_eq s),
    hostAccess_rd_reg (r := .status) (by decide) rfl rfl,
    hostAccess_rd_reg (r := .cmd) (by decide) rfl rfl,
    hostAccess_rd_reg (r := .ilen) (by decide) rfl (halfWord_eq _),
    hostAccess_rd_reg (r := .olen) (by decide) rfl (halfWord_eq _),
    hostAccess_rd_reg (r := .zrun) (by decide) rfl (halfWord_eq _),
    hostAccess_rd_reg (r := .nvalLo) (by decide) rfl rfl,
    hostAccess_rd_reg (r := .nvalHi) (by decide) rfl rfl,
    hostAccess_rd_reg (r := .errIdx) (by decide) rfl (halfWord_eq _),
    fun _ => ⟨hostAccess_wr_ignored (r := .id) (by decide) rfl rfl,
      hostAccess_wr_ignored (r := .param) (by decide) rfl rfl⟩⟩

/-! ### STATUS -/

theorem statusWord_flags (s : State) : s.statusWord.getLsbD 0 = s.busy ∧ s.statusWord.getLsbD 1 = s.done ∧
    s.statusWord.getLsbD 2 = s.err ∧ s.statusWord.getLsbD 3 = s.ovr := by
  unfold State.statusWord
  simp only [BitVec.getLsbD_append, BitVec.getLsbD_ofBool]
  simp

/-- R34: ECODE stands between two fields of zeros. -/
theorem statusWord_fields (s : State) : s.statusWord.extractLsb' 4 4 = 0 ∧
    s.statusWord.extractLsb' 8 4 = s.ecode.number ∧ s.statusWord.extractLsb' 12 20 = 0 := by
  unfold State.statusWord
  simp (disch := decide) only [BitVec.extractLsb'_append_eq_of_le, BitVec.extractLsb'_append_eq_of_add_le]
  simp

/-- Settles O29: the fields of the word by their places in it, and the acknowledge clears flags only. -/
theorem statusWordLayout : Obligations.StatusWordLayout := by
  intro s
  obtain ⟨hbusy, hdone, herr, hovr⟩ := statusWord_flags s
  obtain ⟨hlow, hecode, hhigh⟩ := statusWord_fields s
  refine ⟨hbusy, hdone, herr, hovr, hlow, hecode, hhigh, fun v => ?_, hecode.trans ?_⟩
  · rw [hostAccess_status]; exact ⟨rfl, rfl⟩
  · cases s.ecode <;> rfl

/-! ### The invariant at reset -/

/-- Settles O48: at reset nothing is latched, no buffer entry is listed, and every register is 0. -/
theorem resetMeetsInvariant : Obligations.ResetMeetsInvariant where
  legal := by decide
  ibufWf := .nil
  obufWf := .nil
  ibufBound := fun _ h => nomatch h
  obufBound := fun _ h => nomatch h
  snapshot := fun _ h => nomatch h
  busyNotDone := fun _ => rfl
  olen := Nat.zero_le _
  zrun := Nat.zero_le _
  errIdx := by decide
  errIdxZero := fun _ => rfl

end Sys2Proof.Proofs
end

section
/-! SUPPORT. The window (R60), its buffer words (R63, R64, R66) and reserved offsets (R62), and what stays while a
command runs (R51, R73). -/

namespace Sys2Proof.Proofs

open Sys2Proof Sys2Proof.Machine Sys2Proof.Laws

/-! ### Buffer windows -/

/-- R66: an aligned read whose target is a packed word returns that word's four entries. -/
theorem hostAccess_rd_packed {s : State} {off : Offset} {entry : Nat → Byte} {w : Nat} (ho : off.toNat % 4 = 0)
    (ht : readTarget (target s.cfg off) s = packEntries entry w) :
    ∃ v : Word, hostAccess (rd off) s = { s with resp := .data v } ∧
      ∀ j < 4, v.extractLsb' (8 * j) 8 = entry (4 * w + j) :=
  ⟨packEntries entry w, by rw [hostAccess_rd ho, ht]; rfl, byteOfWord_packEntries entry w⟩

/-- Settles O30: the address map sends each word of a window to the packing of its buffer's entries. -/
theorem bufferWindowReads : Obligations.BufferWindowReads := by
  intro s off w hs
  refine ⟨fun ho hw => ?_, fun ho hw => ?_⟩
  · exact hostAccess_rd_packed (by omega) (by rw [target_ibuf hs ho hw]; rfl)
  · exact hostAccess_rd_packed (by omega) (by rw [target_obuf hs ho hw]; rfl)

/-! ### Reserved offsets -/

section
variable {s : State} {off : Offset} (ho : off.toNat % 4 = 0) (ht : target s.cfg off = .reserved)
include ho ht

theorem hostAccess_rd_reserved : hostAccess (rd off) s = { s with resp := .data 0 } := by
  rw [hostAccess_rd ho, ht]; rfl

theorem hostAccess_wr_reserved (v : Word) : hostAccess (wr off v) s = { s with resp := .written } := by
  rw [hostAccess_wr ho, ht]; rfl

end

/-- Settles O31: the address map sends the three ranges of R61 to the reserved target. -/
theorem reservedOffsets : Obligations.ReservedOffsets := by
  intro s off v hs ho hrange
  have ht := target_reserved hs hrange
  exact ⟨hostAccess_rd_reserved ho ht, hostAccess_wr_reserved ho ht v⟩

/-! ### Window addresses -/

/-- R60, R150: an address has an offset exactly when it is that offset's effective address. -/
theorem offsetOf_eq_some_iff (c : Config) (addr : Nat) (off : Offset) :
    offsetOf c addr = some off ↔ busAddress c off = addr := by
  have hoff := off.isLt
  simp only [offsetOf, busAddress, Option.ite_none_right_eq_some, Option.some.injEq, ← BitVec.toNat_inj,
    BitVec.toNat_ofNat]
  omega

theorem offsetOf_eq_none {c : Config} {addr : Nat} (h : addr < c.base ∨ c.base + 0x3FFF < addr) :
    offsetOf c addr = none := if_neg (by omega)

/-- Settles O40: `offsetOf` inverts `busAddress`, and outside the window there is no offset. -/
theorem windowAddresses : Obligations.WindowAddresses := fun c =>
  ⟨fun off => (offsetOf_eq_some_iff c _ off).mpr rfl, fun _ => offsetOf_eq_none,
    fun addr off => (offsetOf_eq_some_iff c addr off).mp⟩

/-! ### A running command -/

/-- R52, R195: a step that leaves a running command running takes an input, which leaves untouched what the command
reads and commits. -/
theorem step_running {s t : State} (h : step s = .next t) (hs : s.busy = true) (ht : t.busy = true) :
    ∃ rest, Untouched { s with inputs := rest, latency := s.latency - 1 } t := by
  obtain ⟨c, hc⟩ := (busy_true_iff t).mp ht
  obtain ⟨-, ⟨_, -, -, he⟩ | ⟨-, i, rest, -, -, rfl⟩ | ⟨-, hidle, -, -⟩⟩ := step_cases h
  · obtain ⟨-, hnone, -⟩ := exec_frame he
    cases hc.symm.trans hnone
  · rcases running_input (i := i) (s := { s with inputs := rest, latency := s.latency - 1 }) hs with
      ⟨-, hnone⟩ | ⟨-, hu, -⟩
    · cases hc.symm.trans hnone
    · exact ⟨rest, hu⟩
  · cases ((busy_false_iff s).mpr hidle).symm.trans hs

/-- Settles O51: the latch stays, and the operands are read from its snapshot. -/
theorem runningCommandInputsStay : Obligations.RunningCommandInputsStay := by
  intro s t h hs ht
  obtain ⟨c, hc⟩ := (busy_true_iff s).mp hs
  obtain ⟨rest, hu⟩ := step_running h hs ht
  exact ⟨hu.lcmd, operands_of_snapshot hc (hu.lcmd.trans hc) hu.hardResets⟩

end Sys2Proof.Proofs
end

section
/-! SUPPORT. The encoding (spec/30_encoding.md): which words decode as ILLEGAL, by the list of the legal words (R87) and
by their bits (R88), decoder and encoder as inverses (R83), and a round of POLL (R90). -/

namespace Sys2Proof.Proofs

open Sys2Proof Sys2Proof.Machine Sys2Proof.Laws

/-! ### The legal words -/

/-- A word decodes as ILLEGAL exactly when R83's decode function finds a reason. -/
theorem decode_eq_illegal_iff_error (w : Word) : decode w = .illegal w ↔ ∃ r, decodeLegal w = .error r := by
  cases h : decodeLegal w with
  | error r => simp [decode_eq_illegal h]
  | ok i => simp [decode_eq_of_ok h, decodeLegal_ok_ne h]

/-- R87: the ILLEGAL words are those that the table of legal words does not list. -/
theorem decode_eq_illegal_iff_not_mem (w : Word) : decode w = .illegal w ↔ w ∉ legalWords := by
  have hlegal : legalWords.all (fun v => decode v ≠ .illegal v) = true := by decide
  refine ⟨fun h hw => of_decide_eq_true (List.all_eq_true.mp hlegal w hw) h, fun hw => ?_⟩
  cases h : decodeLegal w with
  | error r => exact decode_eq_illegal h
  | ok i =>
    obtain ⟨rfl, hi⟩ := decodeLegal_ok h
    exact absurd (encode_mem_legalWords hi (decodeLegal_ok_ne h)) hw

theorem wellFormed_illegal_iff (w : Word) : wellFormed (.illegal w) = true ↔ w ∉ legalWords := by
  simp [wellFormed]

/-- Settles O1: a legal command's encoding passes R83's checks, and an illegal word is its own encoding. -/
theorem decodeOfEncode : Obligations.DecodeOfEncode := by
  intro i hi
  cases i with
  | illegal w => exact (decode_eq_illegal_iff_not_mem w).mpr ((wellFormed_illegal_iff w).mp hi)
  | conv | enci | deci => exact decode_eq_of_ok (decodeLegal_encode hi (fun _ h => nomatch h))

/-- Settles O2: a word that passes R83's checks is the encoding of its command, and any other word is kept whole. -/
theorem encodeOfDecode : Obligations.EncodeOfDecode := by
  intro w
  cases h : decodeLegal w with
  | ok i =>
    rw [decode_eq_of_ok h]
    exact (decodeLegal_ok h).symm
  | error r =>
    have hw := decode_eq_illegal h
    rw [hw]
    exact ⟨(wellFormed_illegal_iff w).mpr ((decode_eq_illegal_iff_not_mem w).mp hw), rfl⟩

/-- Settles O3: the 13 rows are evaluated, and their words are the list of the legal words. -/
theorem thirteenLegalWords : Obligations.ThirteenLegalWords :=
  ⟨by decide, fun w => (decode_eq_illegal_iff_not_mem w).mpr⟩

/-- Settles O4: each of the seven words is evaluated. -/
theorem pseudoCommandWords : Obligations.PseudoCommandWords := by
  unfold Obligations.PseudoCommandWords
  decide

/-! ### The illegal words by their bits -/

/-- R88's CONV words that are ILLEGAL: a reserved bit, a reserved radix code, or Z = 1 on a pair R85 does not allow. -/
def IllegalConvFields (w : Word) : Prop :=
  rsvField w ≠ 0 ∨ srField w = 3 ∨ trField w = 3 ∨
    (zField w = true ∧ ¬ (srField w = 2 ∧ trField w = 1) ∧ ¬ (srField w = 1 ∧ trField w = 2))

@[simp] theorem codeOfRadix_ne_three (r : Radix) : codeOfRadix r ≠ 3#2 := by cases r <;> decide

/-- R85, in the codes of R84. -/
theorem zeroRunLegal_eq_false_iff (sr tr : Radix) (z : Bool) : zeroRunLegal sr tr z = false ↔
    z = true ∧ ¬ (codeOfRadix sr = 2 ∧ codeOfRadix tr = 1) ∧ ¬ (codeOfRadix sr = 1 ∧ codeOfRadix tr = 2) := by
  cases sr <;> cases tr <;> cases z <;> decide

theorem decodeConv_error_iff (w : Word) : (∃ r, decodeConv w = .error r) ↔ IllegalConvFields w := by
  unfold decodeConv IllegalConvFields
  by_cases hrsv : rsvField w = 0
  · cases hs : radixOfCode (srField w) with
    | none => simp [hrsv, radixOfCode_none.mp hs]
    | some sr =>
      cases ht : radixOfCode (trField w) with
      | none => simp [hrsv, radixOfCode_none.mp ht]
      | some tr =>
        rw [radixOfCode_eq_some hs, radixOfCode_eq_some ht, ← zeroRunLegal_eq_false_iff]
        cases hz : zeroRunLegal sr tr (zField w) <;> simp [hrsv, hz]
  · exact iff_of_true ⟨.reservedBits, if_pos hrsv⟩ (.inl hrsv)

/-- A check of R83 that a legal command follows. -/
theorem error_ite_ok_iff {c : Prop} [Decidable c] (e : IllegalReason) (i : Instr) :
    (∃ r, (if c then .error e else .ok i : Except IllegalReason Instr) = .error r) ↔ c := by
  by_cases hc : c <;> simp [hc]

/-- R88: the ILLEGAL words by their fields. -/
theorem decode_eq_illegal_iff_fields (w : Word) : decode w = .illegal w ↔
    (opField w = 0x0 ∨ 0x4 ≤ opField w) ∨ (opField w = 0x1 ∧ IllegalConvFields w) ∨
      ((opField w = 0x2 ∨ opField w = 0x3) ∧ aboveOpField w ≠ 0) := by
  have hop : ∀ op : BitVec 4, op = 0x1 ∨ op = 0x2 ∨ op = 0x3 ∨
      ((op = 0x0 ∨ 0x4 ≤ op) ∧ op ≠ 0x1 ∧ op ≠ 0x2 ∧ op ≠ 0x3) := by decide
  rw [decode_eq_illegal_iff_error]
  unfold decodeLegal
  rcases hop (opField w) with h | h | h | ⟨h, h1, h2, h3⟩
  · simp [h, decodeConv_error_iff]
  · rw [if_neg (by rw [h]; decide), if_pos h, error_ite_ok_iff]; simp [h]
  · rw [if_neg (by rw [h]; decide), if_neg (by rw [h]; decide), if_pos h, error_ite_ok_iff]; simp [h]
  · exact iff_of_true ⟨.badOpcode, by rw [if_neg h1, if_neg h2, if_neg h3]⟩ (.inl h)

/-- Settles O5: the list of R88 is the decoder's, and whatever the illegal word, its completion raises ILLEGAL_CMD. -/
theorem illegalWordsCompleteWithIllegalCmd : Obligations.IllegalWordsCompleteWithIllegalCmd := by
  intro w
  refine ⟨decode_eq_illegal_iff_fields w, fun hlisted s hidle => ?_⟩
  rw [(decode_eq_illegal_iff_fields w).mpr hlisted, hostAccess_cmd_idle w hidle]
  exact ⟨by simp [busy_eq], by simp, _, exec_illegal w _, raiseError_failedWith .illegalCmd 0 _ 0 rfl⟩

/-! ### POLL -/

/-- R90: a round of POLL at an aligned offset is its read, and goes on unless the masked value matches. -/
theorem applyInput_poll {off : Offset} (ho : off.toNat % 4 = 0) (mask val : Word) (s : State) :
    applyInput (.poll off mask val) s =
      if readTarget (target s.cfg off) s &&& mask = val then hostAccess (rd off) s
      else { hostAccess (rd off) s with inputs := .poll off mask val :: s.inputs } := by
  rw [applyInput, pollRound, hostAccess_rd ho]
  rfl

/-- Settles O60: the value read decides whether the round is the last. (The bare name `pollRound` is the model's.) -/
theorem pollRoundIsOneRead : Obligations.PollRound := by
  intro s off mask val ho
  have hread := hostAccess_rd ho s
  refine ⟨readTarget (target s.cfg off) s, hread, fun hmatch => ?_, fun hmatch => ?_⟩
  · rw [applyInput_poll ho, if_pos hmatch, hread]; rfl
  · rw [applyInput_poll ho, if_neg hmatch, hread]; rfl

end Sys2Proof.Proofs
end

section
/-! SUPPORT. The number functions of spec/40_base_conversion.md section 1: the positional sum (R100), repeated division
(R101), uniqueness without a leading zero (R102), and the leading zero run (R103). -/

namespace Sys2Proof.Proofs

open Sys2Proof Sys2Proof.Machine Sys2Proof.Laws

/-- R100: the loop computes the positional sum, whatever the digits. -/
theorem value_eq_sum (R : Nat) (d : List Nat) :
    value R d = ((List.range d.length).map fun i => d.getD i 0 * R ^ (d.length - 1 - i)).sum := by
  induction d with
  | nil => rfl
  | cons x d ih =>
    have hexp : ∀ i, d.length - 1 - i = d.length - (i + 1) := fun i => by omega
    simp [value_cons, ih, List.range_succ_eq_map, Function.comp_def, hexp]

/-- Settles O6: the sum is by induction on the digits, the bound is `value_lt`. -/
theorem valueIsThePositionalSum : Obligations.ValueIsThePositionalSum := fun r d =>
  ⟨value_nil r.base, value_snoc r.base d, fun hd => ⟨value_eq_sum r.base d, value_lt r.base d hd⟩⟩

/-- Settles O7: one round of the loop is `digits_step`. -/
theorem digitsByRepeatedDivision : Obligations.DigitsByRepeatedDivision := fun r =>
  ⟨digits_zero _, fun _ => digits_step (two_le_base r)⟩

/-- R102: the length is `L` exactly when the number needs `L` digits and `L - 1` do not hold it. -/
theorem digits_length_eq_iff {R L : Nat} (hR : 2 ≤ R) (hL : 1 ≤ L) (N : Nat) :
    (digits R N).length = L ↔ R ^ (L - 1) ≤ N ∧ N < R ^ L := by
  have hle := digits_length_le_iff hR N L
  have hlt := digits_length_le_iff hR N (L - 1)
  omega

theorem exists_head_ne_zero {d : List Nat} (hne : d ≠ []) (hd : d.head? ≠ some 0) : ∃ x, d.head? = some x ∧ x ≠ 0 := by
  cases d with
  | nil => exact absurd rfl hne
  | cons x d => exact ⟨x, rfl, fun hx => hd (congrArg some hx)⟩

/-- Settles O8: the digits are those of a sequence with no leading zero, which its value determines. -/
theorem digitsUniqueWithoutLeadingZero : Obligations.DigitsUniqueWithoutLeadingZero := by
  intro r N hN
  have hr := two_le_base r
  refine ⟨digits_lt hr N, exists_head_ne_zero (digits_ne_nil hr (by omega)) (digits_head hr N), value_digits hr N,
    fun L hL => digits_length_eq_iff hr hL N, fun e he hhead hval => ?_⟩
  rw [← hval, digits_value_of_head hr he hhead]

theorem take_lz (d : List Nat) : d.take (lz d) = List.replicate (lz d) 0 := by
  have h : (List.replicate (lz d) 0 ++ d.drop (lz d)).take (lz d) = List.replicate (lz d) 0 :=
    List.take_left' List.length_replicate
  rwa [← lz_split] at h

/-- R103: no head that is longer than the run is all zero, because the digit after the run is not. -/
theorem le_lz_of_take_zero {d : List Nat} {k : Nat} (hk : k ≤ d.length) (hz : ∀ x ∈ d.take k, x = 0) : k ≤ lz d := by
  by_contra hlt
  have hrun : lz d < k := Nat.not_le.mp hlt
  have hget : d[lz d]? = some d[lz d] := List.getElem?_eq_getElem (by omega)
  have hzero : d[lz d] = 0 := hz _ (List.mem_take_iff_getElem.mpr ⟨lz d, by omega, rfl⟩)
  exact drop_lz_head d (by rw [List.head?_drop, hget, hzero])

/-- Settles O9: the run is zeros, and what follows it does not start with one. -/
theorem leadingZeroRun : Obligations.LeadingZeroRun := by
  refine ⟨lz_nil, lz_zeros, fun d => ⟨lz_le d, fun x hx => ?_, fun k => le_lz_of_take_zero, fun r => ?_⟩⟩
  · rw [take_lz] at hx
    exact List.eq_of_mem_replicate hx
  · exact (value_drop_lz r.base d).symm

end Sys2Proof.Proofs
end

section
/-! SUPPORT. How long a converted sequence can be (spec/40_base_conversion.md rules R107 and R108): every bound compares
a power of the source radix with a power of the target radix. -/

namespace Sys2Proof.Proofs

open Sys2Proof Sys2Proof.Machine Sys2Proof.Laws

/-! ### The image of `n` digits -/

/-- R107's `Lmax(R1, R2, j)`: the length of the image of the largest `j`-digit number. -/
def lmax (r1 r2 : Radix) (j : Nat) : Nat := (digits r2.base (r1.base ^ j - 1)).length

theorem pow_base_pos (r : Radix) (j : Nat) : 0 < r.base ^ j :=
  Nat.pow_pos (Nat.zero_lt_two.trans_le (two_le_base r))

theorem lmax_le_iff (r1 r2 : Radix) (j L : Nat) : lmax r1 r2 j ≤ L ↔ r1.base ^ j ≤ r2.base ^ L := by
  have hpos := pow_base_pos r1 j
  rw [lmax, digits_length_le_iff (two_le_base r2)]
  omega

theorem lmax_eq_succ_iff (r1 r2 : Radix) (j L : Nat) :
    lmax r1 r2 j = L + 1 ↔ r2.base ^ L < r1.base ^ j ∧ r1.base ^ j ≤ r2.base ^ (L + 1) := by
  have hle := lmax_le_iff r1 r2 j (L + 1)
  have hlt := lmax_le_iff r1 r2 j L
  omega

theorem digits_value_length_le {R1 R2 L : Nat} (hR : 2 ≤ R2) {d : List Nat} (hd : ∀ x ∈ d, x < R1)
    (hpow : R1 ^ d.length ≤ R2 ^ L) : (digits R2 (value R1 d)).length ≤ L :=
  (digits_length_le_iff hR _ L).mpr ((value_lt R1 d hd).trans_le hpow)

/-! ### Bounds on `lmax` -/

/-- A radix of at least the source's takes no more digits than the source. -/
theorem lmax_le_self {r1 r2 : Radix} (h : r1.base ≤ r2.base) (j : Nat) : lmax r1 r2 j ≤ j :=
  (lmax_le_iff r1 r2 j j).mpr (Nat.pow_le_pow_left h j)

/-- Three decimal digits hold a byte, so three digits of any radix hold one of any other. -/
theorem lmax_le_three_mul (r1 r2 : Radix) (j : Nat) : lmax r1 r2 j ≤ 3 * j := by
  refine (lmax_le_iff r1 r2 j _).mpr ?_
  have hten : 10 ≤ r2.base := by cases r2 <;> decide
  calc r1.base ^ j ≤ (10 ^ 3) ^ j := Nat.pow_le_pow_left ((base_le r1).trans (by decide)) j
    _ = 10 ^ (3 * j) := (pow_mul 10 3 j).symm
    _ ≤ r2.base ^ (3 * j) := Nat.pow_le_pow_left hten _

/-- What `n` digits gain in length on the way to a smaller radix, fewer digits do not exceed. -/
theorem lmax_le_add_of_le {r1 r2 : Radix} {n m j : Nat} (hr : r2.base ≤ r1.base) (hn : lmax r1 r2 n ≤ n + m)
    (hj : j ≤ n) : lmax r1 r2 j ≤ j + m := by
  rw [lmax_le_iff] at hn ⊢
  refine Nat.le_of_mul_le_mul_right ?_ (pow_base_pos r2 (n - j))
  calc r1.base ^ j * r2.base ^ (n - j) ≤ r1.base ^ j * r1.base ^ (n - j) :=
        Nat.mul_le_mul_left _ (Nat.pow_le_pow_left hr _)
    _ = r1.base ^ n := by rw [← pow_add, Nat.add_sub_cancel' hj]
    _ ≤ r2.base ^ (n + m) := hn
    _ = r2.base ^ (j + m) * r2.base ^ (n - j) := by rw [← pow_add]; congr 1; omega

/-! ### The output of CONV -/

/-- With Z = 0 the zero run costs no output digit. -/
theorem convOutput_plain_length_le (r1 r2 : Radix) {d : List Nat} (hd : ∀ x ∈ d, x < r1.base) :
    (convOutput r1.base r2.base false d).length ≤ lmax r1 r2 (d.length - lz d) := by
  have hstrip : convOutput r1.base r2.base false d = digits r2.base (value r1.base (d.drop (lz d))) := by
    rw [value_drop_lz]; rfl
  rw [hstrip]
  refine digits_value_length_le (two_le_base r2) (fun x hx => hd x (List.mem_of_mem_drop hx)) ?_
  rw [List.length_drop]
  exact (lmax_le_iff r1 r2 _ _).mp le_rfl

/-- With Z = 1 the output is that of Z = 0 behind the run. -/
theorem convOutput_zeroRun (R1 R2 : Nat) (d : List Nat) :
    convOutput R1 R2 true d = List.replicate (lz d) 0 ++ convOutput R1 R2 false d := by
  simp [convOutput, value_drop_lz]

theorem convOutput_zeroRun_length (R1 R2 : Nat) (d : List Nat) :
    (convOutput R1 R2 true d).length = lz d + (convOutput R1 R2 false d).length := by
  rw [convOutput_zeroRun, List.length_append, List.length_replicate]

/-- Each input digit becomes at most three, and each restored zero one. -/
theorem convOutput_length_le (r1 r2 : Radix) (z : Bool) {d : List Nat} (hd : ∀ x ∈ d, x < r1.base) :
    (convOutput r1.base r2.base z d).length ≤ 3 * d.length := by
  have hplain := (convOutput_plain_length_le r1 r2 hd).trans (lmax_le_three_mul r1 r2 _)
  have hrun := lz_le d
  cases z with
  | false => omega
  | true => rw [convOutput_zeroRun_length]; omega

/-! ### The maxima at 256 digits -/

/-- A power with its exponent in quarters: `decide` evaluates no power above an exponent of 256, and 617 is needed. -/
def powQuarters (b n : Nat) : Nat := (b ^ (n / 4)) ^ 4 * b ^ (n % 4)

theorem pow_eq_powQuarters (b n : Nat) : b ^ n = powQuarters b n := by
  rw [powQuarters, ← pow_mul, ← pow_add, Nat.div_add_mod']

/-- R107's table: the image of 256 digits, source radix by source radix. -/
theorem lmax_table :
    lmax .ten .ten 256 = 256 ∧ lmax .ten .fiftyEight 256 = 146 ∧ lmax .ten .twoFiftySix 256 = 107 ∧
    lmax .fiftyEight .ten 256 = 452 ∧ lmax .fiftyEight .fiftyEight 256 = 256 ∧ lmax .fiftyEight .twoFiftySix 256 = 188 ∧
    lmax .twoFiftySix .ten 256 = 617 ∧ lmax .twoFiftySix .fiftyEight 256 = 350 ∧
    lmax .twoFiftySix .twoFiftySix 256 = 256 := by
  simp only [lmax_eq_succ_iff, pow_eq_powQuarters]
  decide

/-- A block with the least legal depths. -/
def leastConfig : Config := { Config.ofSpec with ibufDepth := 8, obufDepth := 16, accBits := 64 }

/-- Settles O10: the bounds compare powers of the radices; the least block overflows on eight bytes of 255. -/
theorem outputLengthBounds : Obligations.OutputLengthBounds := by
  refine ⟨fun r1 r2 d hd => ?_, lmax_table, fun k _ => ?_, fun r1 r2 z d _ hd hlen => ?_,
    leastConfig, List.replicate 8 255, by decide, by decide, by decide, by decide⟩
  · have hplain := convOutput_plain_length_le r1 r2 hd
    refine ⟨hplain, ?_, ?_⟩
    · rw [convOutput_zeroRun_length, value_drop_lz]; rfl
    · rw [convOutput_zeroRun_length]; exact Nat.add_le_add_left hplain _
  · obtain ⟨-, -, -, -, -, -, -, hmax, -⟩ := lmax_table
    have henc := lmax_le_add_of_le (m := 94) (by decide) hmax.le (Nat.sub_le 256 k)
    have hdec := lmax_le_self (r1 := .fiftyEight) (r2 := .twoFiftySix) (by decide) (256 - k)
    change k + lmax .twoFiftySix .fiftyEight (256 - k) ≤ 350 ∧ k + lmax .fiftyEight .twoFiftySix (256 - k) ≤ 256
    omega
  · have := convOutput_length_le r1 r2 z hd
    omega

/-- Settles O11: each row compares a power of the source radix with a power of the target radix. -/
theorem shortInputLengths : Obligations.ShortInputLengths := by
  refine fun d _ => ⟨fun p hp hlen hd => ?_, fun p hp hlen hd => ?_⟩
  · have hpow : ∀ q ∈ [(1, 2), (2, 3), (3, 5), (4, 6), (5, 7), (6, 9), (7, 10), (8, 11)],
        256 ^ q.1 ≤ 58 ^ q.2 := by decide
    exact digits_value_length_le (by decide) hd (hlen ▸ hpow p hp)
  · have hpow : ∀ q ∈ [(1, 1), (2, 2), (3, 3), (4, 3), (5, 4), (6, 5), (7, 6), (8, 6)],
        58 ^ q.1 ≤ 256 ^ q.2 := by decide
    exact digits_value_length_le (by decide) hd (hlen ▸ hpow p hp)

end Sys2Proof.Proofs
end

section
/-! SUPPORT. CONV (spec/40_base_conversion.md rules R104 and R105): its end on every branch, and what its output is as a
number and as a sequence. -/

namespace Sys2Proof.Proofs

open Sys2Proof Sys2Proof.Machine Sys2Proof.Laws

/-- R104's success: the input passes the checks, the output fits, and the 16-bit registers hold both depths. -/
theorem exec_conv_succeeds {sr tr : Radix} {z : Bool} {s : State} (hlen : operandLen s ≤ s.cfg.ibufDepth)
    (hd : ∀ x ∈ operandDigits s, x < sr.base)
    (hout : (convOutput sr.base tr.base z (operandDigits s)).length ≤ s.cfg.obufDepth)
    (hi : s.cfg.ibufDepth < 2 ^ 16) (ho : s.cfg.obufDepth < 2 ^ 16) :
    ∃ t, exec (.conv sr tr z) s = .next t ∧ Succeeded s t ∧
      OutputIs (convOutput sr.base tr.base z (operandDigits s)) s t ∧ t.zrun.toNat = lz (operandDigits s) ∧
      t.nvalLo = s.nvalLo ∧ t.nvalHi = s.nvalHi := by
  have hrun : lz (operandDigits s) < 2 ^ 16 := by
    have := lz_le (operandDigits s)
    rw [operandDigits_length] at this
    omega
  refine ⟨_, exec_conv_ok hlen hd hout, completeOk_succeeded (storeOutput_writes _ _ s),
    commit_outputIs (hout.trans_lt ho) convOutput_lt, ?_, by simp, by simp⟩
  rw [completeOk_zrun, storeOutput_zrun, BitVec.toNat_ofNat, Nat.mod_eq_of_lt hrun]

/-- R6: the 16-bit registers hold both depths. -/
theorem depths_lt {c : Config} (hc : c.legal = true) : c.ibufDepth < 2 ^ 16 ∧ c.obufDepth < 2 ^ 16 := by
  obtain ⟨-, -, hi, -, -, ho, -⟩ := (legal_iff c).mp hc
  omega

/-- Settles O12: one lemma about `exec` per branch of R104's pseudocode. -/
theorem convMeetsItsRule : Obligations.ConvMeetsItsRule := by
  intro sr tr z s hs d out
  obtain ⟨hi, ho⟩ := depths_lt hs
  refine ⟨fun hlong => ?_, fun hlen i hid hbad hfirst => ?_, fun hlen hd hover => ?_, fun hlen hd hfit => ?_⟩
  · exact ⟨_, exec_conv_long hlong, raiseError_failedWith _ _ s 0 rfl⟩
  · have hidx : i < 2 ^ 16 := by
      rw [operandDigits_length] at hid
      omega
    exact ⟨_, exec_conv_bad hlen (firstOutOfRange_some.mpr ⟨hid, hbad, hfirst⟩),
      raiseError_failedWith _ _ s i (Nat.mod_eq_of_lt hidx)⟩
  · exact ⟨_, exec_conv_overflow hlen hd hover, raiseError_failedWith _ _ s 0 rfl⟩
  · exact exec_conv_succeeds hlen hd hfit hi ho

/-- CONV keeps the magnitude, with and without the zero run. -/
theorem value_convOutput (sr tr : Radix) (z : Bool) (d : List Nat) :
    value tr.base (convOutput sr.base tr.base z d) = value sr.base d := by
  have hplain : value tr.base (convOutput sr.base tr.base false d) = value sr.base d :=
    value_digits (two_le_base tr) _
  cases z with
  | false => exact hplain
  | true => rw [convOutput_zeroRun, value_zeros_append, hplain]

/-- The output begins with exactly the restored zeros, because `digits` begins with none. -/
theorem lz_convOutput (R1 : Nat) (tr : Radix) (z : Bool) (d : List Nat) :
    lz (convOutput R1 tr.base z d) = if z = true then lz d else 0 := by
  cases z with
  | false => exact lz_digits (two_le_base tr) _
  | true => rw [convOutput_zeroRun]; exact lz_zeros_append _ (digits_head (two_le_base tr) _)

/-- Settles O13: 256 digits become at most three times as many, which OBUF holds. -/
theorem convCompletesAtSpecDepths : Obligations.ConvCompletesAtSpecDepths := by
  intro sr tr z s hi ho _ hlen hd
  have hfit : (convOutput sr.base tr.base z (operandDigits s)).length ≤ s.cfg.obufDepth := by
    have := convOutput_length_le sr tr z hd
    rw [operandDigits_length] at this
    omega
  obtain ⟨t, hexec, hok, hout, hzrun, -⟩ := exec_conv_succeeds (hi ▸ hlen) hd hfit (by omega) (by omega)
  refine ⟨t, hexec, hok, hzrun, ?_, ?_⟩
  · rw [outputDigits_of_outputIs hout, value_convOutput]
  · rw [outputDigits_of_outputIs hout, lz_convOutput]

/-- Settles O23: the digits of a sequence's value in its own radix are the sequence behind its zero run. -/
theorem sameRadixConvStripsOnly : Obligations.SameRadixConvStripsOnly := by
  intro r s hs hlen hfit hd
  obtain ⟨hi, ho⟩ := depths_lt hs
  have hstrip : convOutput r.base r.base false (operandDigits s) = (operandDigits s).drop (lz (operandDigits s)) :=
    digits_value (two_le_base r) hd
  have hshort : (convOutput r.base r.base false (operandDigits s)).length ≤ s.cfg.obufDepth := by
    rw [hstrip, List.length_drop, operandDigits_length]
    omega
  obtain ⟨t, hexec, hok, hout, -⟩ := exec_conv_succeeds hlen hd hshort hi ho
  exact ⟨t, hexec, hok, (outputDigits_of_outputIs hout).trans hstrip⟩

end Sys2Proof.Proofs
end

section
/-! SUPPORT. The zero run (spec/41_zero_run.md rules R122 to R126): what the run says of a sequence's digits, what a
successful CONV leaves, and that the conversion back with Z = 1 undoes the conversion. -/

namespace Sys2Proof.Proofs

open Sys2Proof Sys2Proof.Machine Sys2Proof.Laws

/-! ### The run and the digits -/

theorem getElem_eq_zero_of_lt_lz {d : List Nat} {i : Nat} (hi : i < lz d) (hid : i < d.length) : d[i] = 0 := by
  have hmem : d[i] ∈ d.take (lz d) := List.mem_take_iff_getElem.mpr ⟨i, by omega, rfl⟩
  rw [take_lz] at hmem
  exact List.eq_of_mem_replicate hmem

theorem getElem_lz_ne_zero {d : List Nat} (h : lz d < d.length) : d[lz d] ≠ 0 := fun hzero =>
  drop_lz_head d (by rw [List.head?_drop, List.getElem?_eq_getElem h, hzero])

theorem lz_eq_of_getElem {d : List Nat} {k : Nat} (hk : k < d.length) (hzero : ∀ i (hi : i < k), d[i] = 0)
    (hne : d[k] ≠ 0) : lz d = k := by
  have hge : k ≤ lz d := le_lz_of_take_zero hk.le fun x hx => by
    obtain ⟨i, hi, rfl⟩ := List.mem_take_iff_getElem.mp hx
    exact hzero i (by omega)
  have hle : lz d ≤ k := Nat.not_lt.mp fun hlt => hne (getElem_eq_zero_of_lt_lz hlt hk)
  exact Nat.le_antisymm hle hge

/-- R103: a sequence has a magnitude exactly when a digit follows its zero run. -/
theorem value_ne_zero_iff {R : Nat} (hR : 2 ≤ R) (d : List Nat) : value R d ≠ 0 ↔ lz d < d.length := by
  rw [← value_drop_lz]
  constructor
  · intro hval
    by_contra hlen
    exact hval (by rw [List.drop_of_length_le (Nat.not_lt.mp hlen), value_nil])
  · intro hlen
    have hpos : 0 < R ^ ((d.drop (lz d)).length - 1) := Nat.pow_pos (by omega)
    have hle := pow_le_value (R := R) (List.drop_eq_nil_iff.not.mpr (Nat.not_le.mpr hlen)) (drop_lz_head d)
    omega

/-! ### The output of CONV -/

theorem convOutput_lt_base (sr tr : Radix) (z : Bool) (d : List Nat) :
    ∀ x ∈ convOutput sr.base tr.base z d, x < tr.base := by
  have hplain : ∀ x ∈ convOutput sr.base tr.base false d, x < tr.base := digits_lt (two_le_base tr) _
  cases z with
  | false => exact hplain
  | true =>
    intro x hx
    rw [convOutput_zeroRun] at hx
    rcases List.mem_append.mp hx with hrun | hdigits
    · rw [List.eq_of_mem_replicate hrun]
      exact Nat.zero_lt_two.trans_le (two_le_base tr)
    · exact hplain x hdigits

/-- Towards a radix of at least the source's, CONV lengthens no sequence: the run stays and the digits do not grow. -/
theorem convOutput_zeroRun_length_le {r1 r2 : Radix} (h : r1.base ≤ r2.base) {d : List Nat}
    (hd : ∀ x ∈ d, x < r1.base) : (convOutput r1.base r2.base true d).length ≤ d.length := by
  have hplain := (convOutput_plain_length_le r1 r2 hd).trans (lmax_le_self h _)
  have hrun := lz_le d
  rw [convOutput_zeroRun_length]
  omega

/-- R125: the way back sees the same run and the same magnitude, which determine the sequence. -/
theorem convOutput_convOutput (sr tr : Radix) {d : List Nat} (hd : ∀ x ∈ d, x < sr.base) :
    convOutput tr.base sr.base true (convOutput sr.base tr.base true d) = d := by
  have hplain : convOutput tr.base sr.base false (convOutput sr.base tr.base true d) = d.drop (lz d) :=
    calc digits sr.base (value tr.base (convOutput sr.base tr.base true d))
      _ = digits sr.base (value sr.base d) := by rw [value_convOutput]
      _ = d.drop (lz d) := digits_value (two_le_base sr) hd
  rw [convOutput_zeroRun, hplain, lz_convOutput, if_pos rfl, ← lz_split]

/-- R124: a digit follows the run of the output exactly when one follows the run of the input. -/
theorem lz_lt_length_convOutput_iff (sr tr : Radix) (z : Bool) (d : List Nat) :
    lz (convOutput sr.base tr.base z d) < (convOutput sr.base tr.base z d).length ↔ lz d < d.length := by
  rw [← value_ne_zero_iff (two_le_base tr), value_convOutput, value_ne_zero_iff (two_le_base sr)]

/-! ### A successful CONV -/

/-- R104, R145: ECODE = NONE tells a CONV that wrote its output, which fits OBUF. -/
theorem exec_conv_noError {sr tr : Radix} {z : Bool} {s t : State} (hs : s.Legal)
    (h : exec (.conv sr tr z) s = .next t) (hok : t.ecode = .noError) :
    (convOutput sr.base tr.base z (operandDigits s)).length ≤ s.cfg.obufDepth ∧
      OutputIs (convOutput sr.base tr.base z (operandDigits s)) s t := by
  rcases exec_cases h with ⟨e, ⟨he, -⟩, rfl⟩ | ⟨u, -, rfl, ⟨out, k, rfl, hfit, hi⟩ | ⟨hi, -⟩⟩
  · exact absurd hok he
  · rcases hi with ⟨_, _, _, hconv, -, -, rfl, -⟩ | ⟨henci, -⟩
    · cases hconv
      exact ⟨hfit, commit_outputIs (output_fits hs hfit) convOutput_lt⟩
    · cases henci
  · cases hi

/-- A command whose input is the output of another reads that output's digits. -/
theorem operandDigits_eq_outputDigits {t u : State} (hlen : operandLen u = t.olen.toNat)
    (hin : ∀ i < t.olen.toNat, operandEntry u i = t.obufEntry i) : operandDigits u = t.outputDigits := by
  unfold operandDigits State.outputDigits
  rw [hlen]
  exact List.map_congr_left fun i hi => by rw [hin i (List.mem_range.mp hi)]

/-! ### The rules of the zero run -/

/-- Settles O20: the output is `convOutput` with Z = 1, whose run is that of the input. -/
theorem zeroRunRestored : Obligations.ZeroRunRestored := by
  intro sr tr s hs hlen hd d k hfit
  obtain ⟨hi, ho⟩ := depths_lt hs
  have hshort : (convOutput sr.base tr.base true d).length ≤ s.cfg.obufDepth := by
    simpa [convOutput] using hfit
  obtain ⟨t, hexec, hok, hout, -⟩ := exec_conv_succeeds hlen hd hshort hi ho
  have hdigits : t.outputDigits = List.replicate k 0 ++ digits tr.base (value sr.base (d.drop k)) :=
    outputDigits_of_outputIs hout
  refine ⟨t, hexec, hok.ecode, hdigits, ?_, fun hempty => ?_⟩
  · rw [hdigits]
    exact lz_zeros_append k (digits_head (two_le_base tr) _)
  · rw [hdigits, hempty, value_nil, digits_zero, List.append_nil]

/-- Settles O22: the output is `convOutput` with Z = 0, the digits of a magnitude the input's zeros add nothing to. -/
theorem plainConvDropsLeadingZeros : Obligations.PlainConvDropsLeadingZeros := by
  intro sr tr s hs hlen hd hfit
  obtain ⟨hi, ho⟩ := depths_lt hs
  obtain ⟨t, hexec, hok, hout, hzrun, -⟩ := exec_conv_succeeds (z := false) hlen hd hfit hi ho
  have hdigits : t.outputDigits = digits tr.base (value sr.base (operandDigits s)) := outputDigits_of_outputIs hout
  refine ⟨t, hexec, hok.ecode, ?_, ?_, hzrun⟩
  · rw [hdigits, value_drop_lz]
  · rw [hdigits]
    exact digits_head (two_le_base tr) _

/-- Settles O21: the input's run has length k, so the output's has too, and a digit follows both. -/
theorem zeroPreservation : Obligations.ZeroPreservation := by
  intro s t k hs _ hzero hk hne hexec hok
  obtain ⟨-, holen, hwritten, -⟩ := exec_conv_noError hs hexec hok
  have hkd : k < (operandDigits s).length := by rwa [operandDigits_length]
  have hrun : lz (operandDigits s) = k := by
    refine lz_eq_of_getElem hkd (fun i hi => ?_) ?_
    · rw [operandDigits_get, hzero i hi]; rfl
    · rw [operandDigits_get]; exact fun h => hne (BitVec.eq_of_toNat_eq h)
  have hlt := (lz_lt_length_convOutput_iff .twoFiftySix .fiftyEight true _).mpr (hrun.trans_lt hkd)
  have hsame : lz (convOutput Radix.twoFiftySix.base Radix.fiftyEight.base true (operandDigits s)) = k := by
    rw [lz_convOutput, if_pos rfl, hrun]
  subst hsame
  refine ⟨holen ▸ hlt, fun i hi => BitVec.eq_of_toNat_eq ?_, fun hzero => getElem_lz_ne_zero hlt ?_⟩
  · rw [hwritten i (hi.trans hlt), getElem_eq_zero_of_lt_lz hi]; rfl
  · rw [← hwritten _ hlt, hzero]; rfl

/-- Settles O24: DEC reads the output of ENC, is no longer than it, and converts it back. -/
theorem encodeThenDecodeReturnsBytes : Obligations.EncodeThenDecodeReturnsBytes := by
  intro s t u hs _ hexec hok holen hcfg hulen huin
  obtain ⟨hi, ho⟩ := depths_lt hs
  obtain ⟨hfit, hout⟩ := exec_conv_noError hs hexec hok
  have hin : operandDigits u = convOutput Radix.twoFiftySix.base Radix.fiftyEight.base true (operandDigits s) :=
    (operandDigits_eq_outputDigits hulen huin).trans (outputDigits_of_outputIs hout)
  have hlt := convOutput_lt_base .twoFiftySix .fiftyEight true (operandDigits s)
  have hback := convOutput_convOutput .twoFiftySix .fiftyEight (operandDigits_lt s)
  have hshort := (convOutput_zeroRun_length_le (r2 := .twoFiftySix) (by decide) hlt).trans hfit
  rw [← hin] at hlt hback hshort
  rw [← hcfg] at holen hi ho hshort
  obtain ⟨v, hdec, hvok, hvout, -⟩ := exec_conv_succeeds (hulen.trans_le holen) hlt hshort hi ho
  rw [hback] at hvout
  refine ⟨v, hdec, hvok.ecode, hvout.olen.trans (operandDigits_length s), fun i hi => BitVec.eq_of_toNat_eq ?_⟩
  rw [hvout.written i (by rwa [operandDigits_length]), operandDigits_get]

end Sys2Proof.Proofs
end

section
/-! SUPPORT. The integer commands (spec/42_integer.md rules R130 to R133): the end of ENCI, the end of DECI on every
branch, and that DECI undoes ENCI. -/

namespace Sys2Proof.Proofs

open Sys2Proof Sys2Proof.Machine Sys2Proof.Laws

/-- R130's success: the digits are bytes, and at most 11 of them, which OBUF and OLEN hold at every legal depth. -/
theorem exec_enci_succeeds {s : State} (hs : s.Legal) :
    ∃ t, exec .enci s = .next t ∧ Succeeded s t ∧ OutputIs (digits 58 (operandInt s)) s t ∧ t.zrun = 0 ∧
      t.nvalLo = s.nvalLo ∧ t.nvalHi = s.nvalHi := by
  have hshort : (digits 58 (operandInt s)).length < 2 ^ 16 := (enci_length s).trans_lt (by decide)
  have hbyte : ∀ x ∈ digits 58 (operandInt s), x < 256 := fun x hx =>
    (digits_lt (by decide) _ x hx).trans (by decide)
  exact ⟨_, exec_enci_ok hs, completeOk_succeeded (storeOutput_writes _ _ s), commit_outputIs hshort hbyte,
    rfl, rfl, rfl⟩

/-- Settles O14: ENCI has one end, the successful one. -/
theorem enciMeetsItsRule : Obligations.EnciMeetsItsRule := fun s hs =>
  ⟨enci_length s, exec_enci_succeeds hs⟩

/-- R131's success: an integer below 2^64 fits NVAL, and the zero run of an accepted input fits ZRUN. -/
theorem exec_deci_succeeds {s : State} (hs : s.Legal) (hlen : operandLen s ≤ s.cfg.ibufDepth)
    (hd : ∀ x ∈ operandDigits s, x < 58) (hval : value 58 (operandDigits s) < 2 ^ 64) :
    ∃ t, exec .deci s = .next t ∧ Succeeded s t ∧ t.nval.toNat = value 58 (operandDigits s) ∧
      t.zrun.toNat = lz (operandDigits s) ∧ t.olen = s.olen ∧ ∀ i, t.obufEntry i = s.obufEntry i := by
  refine ⟨_, exec_deci_ok hlen hd hval, completeOk_succeeded (storeInteger_writes _ _ s),
    storeInteger_nval hval (lz (operandDigits s)) s, ?_, rfl, fun i => obufEntry_congr rfl rfl i⟩
  rw [completeOk_zrun, storeInteger_zrun, BitVec.toNat_ofNat, Nat.mod_eq_of_lt (lz_fits hs hlen)]

/-- Settles O15: one lemma about `exec` per branch of R131's pseudocode. -/
theorem deciMeetsItsRule : Obligations.DeciMeetsItsRule := by
  intro s hs d
  refine ⟨fun hlong => ?_, fun hlen i hid hbad hfirst => ?_, fun hlen hd hover => ?_, fun hlen hd hval => ?_⟩
  · exact ⟨_, exec_deci_long hlong, raiseError_failedWith _ _ s 0 rfl⟩
  · have hidx : i < 2 ^ 16 := by
      obtain ⟨hdepth, -⟩ := depths_lt hs
      rw [operandDigits_length] at hid
      omega
    exact ⟨_, exec_deci_bad hlen (firstOutOfRange_some.mpr ⟨hid, hbad, hfirst⟩),
      raiseError_failedWith _ _ s i (Nat.mod_eq_of_lt hidx)⟩
  · exact ⟨_, exec_deci_overflow hlen hd hover, raiseError_failedWith _ _ s 0 rfl⟩
  · exact exec_deci_succeeds hs hlen hd hval

/-- Settles O25: DECI reads the digits of the integer, whose value is the integer, which NVAL held before. -/
theorem encodeThenDecodeReturnsInteger : Obligations.EncodeThenDecodeReturnsInteger := by
  intro s t u hs hexec holen hcfg hulen huin
  have hu : u.Legal := (congrArg Config.legal hcfg).trans hs
  have hlen : operandLen u ≤ u.cfg.ibufDepth := by rwa [hulen, hcfg]
  have hin : operandDigits u = digits 58 (operandInt s) := by
    obtain ⟨t', hexec', -, hout, -⟩ := exec_enci_succeeds hs
    obtain rfl : t' = t := Host.Outcome.next.inj (hexec'.symm.trans hexec)
    exact (operandDigits_eq_outputDigits hulen huin).trans (outputDigits_of_outputIs hout)
  have hd : ∀ x ∈ operandDigits u, x < 58 := by
    rw [hin]
    exact digits_lt (by decide) _
  have hback : value 58 (operandDigits u) = operandInt s := by
    rw [hin]
    exact value_digits (by decide) _
  obtain ⟨v, hdec, hok, hnval, -⟩ := exec_deci_succeeds hu hlen hd (hback ▸ operandInt_lt s)
  exact ⟨v, hdec, hok.ecode, hnval.trans hback⟩

end Sys2Proof.Proofs
end

section
/-! SUPPORT. The host's accesses (spec/43_host_access.md): which writes the block ignores (R149), drops (R143, R144) or
stores (R144, R148), the accept (R142), the acknowledge (R146), and the bus error (R152). -/

namespace Sys2Proof.Proofs

open Sys2Proof Sys2Proof.Machine Sys2Proof.Laws

/-! ### Ignored writes -/

/-- R64: the block ignores a write to a word of the OBUF window. -/
theorem hostAccess_wr_obuf {s : State} {off : Offset} (v : Word) (hs : s.Legal) (ho : off.toNat % 4 = 0)
    (h1 : 0x2000 ≤ off.toNat) (h2 : off.toNat < 0x2000 + s.cfg.obufDepth) :
    hostAccess (wr off v) s = { s with resp := .written } := by
  obtain ⟨-, -, -, hmul, -⟩ := (legal_iff s.cfg).mp hs
  rw [hostAccess_wr ho, target_obuf (w := (off.toNat - 0x2000) / 4) hs (by omega) (by omega)]
  rfl

/-- Settles O32: the five read-only registers, the OBUF window, and the three reserved ranges. -/
theorem ignoredWrites : Obligations.IgnoredWrites := by
  intro s off v hs ho hoff
  rcases hoff with hreg | ⟨h1, h2⟩ | hres
  · simp only [List.mem_cons, List.not_mem_nil, or_false] at hreg
    rcases hreg with rfl | rfl | rfl | rfl | rfl
    · exact hostAccess_wr_ignored (r := .id) ho rfl rfl
    · exact hostAccess_wr_ignored (r := .param) ho rfl rfl
    · exact hostAccess_wr_ignored (r := .olen) ho rfl rfl
    · exact hostAccess_wr_ignored (r := .zrun) ho rfl rfl
    · exact hostAccess_wr_ignored (r := .errIdx) ho rfl rfl
  · exact hostAccess_wr_obuf v hs ho h1 h2
  · exact hostAccess_wr_reserved ho (target_reserved hs hres) v

/-! ### CMD writes -/

/-- R142: the accept writes no result. -/
theorem accept_resultsUnchanged (w : Word) (s : State) : ResultsUnchanged s (respond .written (accept w s)) where
  olen := by simp
  zrun := by simp
  nvalLo := by simp
  nvalHi := by simp
  obuf := obufEntry_congr (by simp) (by simp)

/-- R145: every command's body ends, with BUSY = 0 and DONE = 1. -/
theorem exec_ends (i : Instr) (s : State) : ∃ u, exec i s = .next u ∧ u.busy = false ∧ u.done = true := by
  obtain ⟨u, hu⟩ := exec_next i s
  obtain ⟨-, hidle, hdone, -⟩ := exec_frame hu
  exact ⟨u, hu, (busy_false_iff u).mpr hidle, hdone⟩

/-- Settles O33: the accept field by field, the STATUS read after it, and the end of the command. -/
theorem commandAccept : Obligations.CommandAccept := by
  intro s w hidle
  rw [hostAccess_cmd_idle w hidle]
  exact ⟨by simp, by simp, by simp, by simp [busy_eq], by simp [State.phase], by simp, by simp, by simp,
    accept_resultsUnchanged w s, by simp, by simp, by simp, by simp, ibufEntry_congr (by simp) (by simp),
    congrArg State.resp (hostAccess_rd_reg (r := .status) (by decide) rfl rfl), exec_ends _ _⟩

/-- Settles O34: the drop is `setOverrun`. -/
theorem commandWhileBusyDropped : Obligations.CommandWhileBusyDropped := fun _ w hb => hostAccess_cmd_busy w hb

/-! ### Input writes -/

theorem lockedWrite_idle {s : State} (hb : s.busy = false) (store : State → State) : lockedWrite store s = store s := by
  simp [lockedWrite, hb]

theorem hostAccess_wr_reg {s t : State} {off : Offset} {r : Reg} {v : Word} (ho : off.toNat % 4 = 0)
    (ht : target s.cfg off = .reg r) (hr : writeReg r v s = t) : hostAccess (wr off v) s = respond .written t := by
  rw [hostAccess_wr ho, ht, writeTarget, hr]

section
variable {s : State} {off : Offset} {w : Nat} (v : Word) (hs : s.Legal) (ho : off.toNat = 0x1000 + 4 * w)
  (hw : w < s.cfg.ibufDepth / 4)
include hs ho hw

/-- R148: an idle block stores a write to an IBUF word. -/
theorem hostAccess_wr_ibuf_idle (hb : s.busy = false) :
    hostAccess (wr off v) s = respond .written (storeIbufWord w v s) := by
  rw [hostAccess_wr (by omega), target_ibuf hs ho hw, writeTarget, lockedWrite_idle hb]

/-- R144: a busy block drops a write to an IBUF word. -/
theorem hostAccess_wr_ibuf_busy (hb : s.busy = true) :
    hostAccess (wr off v) s = { s with ovr := true, resp := .written } :=
  hostAccess_locked v hs hb (by omega) (.inr ⟨by omega, by omega⟩)

end

/-- R148: the four entries of a stored word are its bytes. -/
theorem storeIbufWord_ibufEntry_word (w : Nat) (v : Word) (s : State) {j : Nat} (hj : j < 4) :
    (storeIbufWord w v s).ibufEntry (4 * w + j) = byteOfWord v j := by
  rw [storeIbufWord_ibufEntry, if_pos (by omega), Nat.add_sub_cancel_left]

/-- Settles O35: while busy the input registers and the IBUF words are locked; an idle block stores. -/
theorem inputLock : Obligations.InputLock := by
  intro s v hs
  refine ⟨fun hb => ⟨fun off hoff => ?_, fun off w ho hw => hostAccess_wr_ibuf_busy v hs ho hw hb⟩,
    fun hb => ⟨?_, ?_, ?_, fun off w ho hw j hj => ?_⟩⟩
  · have hmul : off.toNat % 4 = 0 := by
      simp only [List.mem_cons, List.not_mem_nil, or_false] at hoff
      rcases hoff with rfl | rfl | rfl <;> rfl
    exact hostAccess_locked v hs hb hmul (.inl (List.mem_cons_of_mem _ hoff))
  · rw [BitVec.setWidth_eq_extractLsb' (by decide)]
    exact hostAccess_wr_reg (off := 0x014) (by decide) rfl
      (lockedWrite_idle hb fun s => { s with ilen := v.extractLsb' 0 16 })
  · exact hostAccess_wr_reg (off := 0x020) (by decide) rfl (lockedWrite_idle hb fun s => { s with nvalLo := v })
  · exact hostAccess_wr_reg (off := 0x024) (by decide) rfl (lockedWrite_idle hb fun s => { s with nvalHi := v })
  · rw [hostAccess_wr_ibuf_idle v hs ho hw hb]
    exact storeIbufWord_ibufEntry_word w v s hj

/-- R66, R148: an IBUF word reads back as the word stored. -/
theorem hostAccess_rd_stored {s : State} {off : Offset} {w : Nat} (v : Word) (hs : s.Legal)
    (ho : off.toNat = 0x1000 + 4 * w) (hw : w < s.cfg.ibufDepth / 4) :
    (hostAccess (rd off) (respond .written (storeIbufWord w v s))).resp = .data v := by
  rw [hostAccess_rd (by omega), respond_resp, respond_cfg, storeIbufWord_cfg, target_ibuf hs ho hw]
  exact congrArg BusResponse.data
    (packEntries_byteOfWord v w _ fun _ hj => storeIbufWord_ibufEntry_word w v s hj)

/-- Settles O36: the stored word by its entries and by a read; beyond IBUF_DEPTH the offset is reserved. -/
theorem ibufWordWrite : Obligations.IbufWordWrite := by
  intro s off w v hs ho hlt
  refine ⟨fun hw hb => ?_, hostAccess_wr_ibuf_busy v hs ho, fun hw => ?_⟩
  · rw [hostAccess_wr_ibuf_idle v hs ho hw hb]
    refine ⟨fun j hj => storeIbufWord_ibufEntry_word w v s hj, fun i hi => ?_, ⟨_, rfl⟩,
      hostAccess_rd_stored v hs ho hw⟩
    exact (storeIbufWord_ibufEntry w v s i).trans (if_neg (by omega))
  · obtain ⟨hmul, -⟩ := (legal_iff s.cfg).mp hs
    exact hostAccess_wr_reserved (by omega) (target_reserved hs (.inr (.inl ⟨by omega, hlt⟩))) v

/-! ### STATUS writes -/

/-- R146: clearing a flag where a bit is 1, by cases on the bit. -/
theorem and_not_eq_ite (flag bit : Bool) : (flag && !bit) = if bit = true then false else flag := by
  cases bit <;> simp

/-- Settles O37: each of the three flags by its bit. -/
theorem statusWriteClears : Obligations.StatusWriteClears := by
  intro s v
  rw [hostAccess_status, ← and_not_eq_ite, ← and_not_eq_ite, ← and_not_eq_ite]
  rfl

/-! ### Bus errors -/

theorem accepted_eq_false_iff (a : Access) : a.accepted = false ↔ a.width ≠ .bits32 ∨ a.off.toNat % 4 ≠ 0 := by
  rw [← Bool.not_eq_true, Access.accepted, Bool.and_eq_true, beq_iff_eq, beq_iff_eq, not_and_or]

/-- R152: an accepted access is answered with a value or as a write. -/
theorem hostAccess_resp_ne_busError {a : Access} (h : a.accepted = true) (s : State) :
    (hostAccess a s).resp ≠ .busError := by
  rw [hostAccess, if_pos h]
  cases a.kind <;> simp

/-- Settles O39: the bus error is the answer to exactly the accesses R65 does not accept. -/
theorem busErrorHasNoEffect : Obligations.BusErrorHasNoEffect := by
  intro s a
  rw [← accepted_eq_false_iff]
  refine ⟨⟨fun herr => ?_, fun hacc => ?_⟩, fun hacc => hostAccess_busError hacc s⟩
  · exact Bool.eq_false_iff.mpr fun hacc => hostAccess_resp_ne_busError hacc s herr
  · rw [hostAccess_busError hacc, respond_resp]

end Sys2Proof.Proofs
end

section
/-! SUPPORT. Which step comes next (spec/43_host_access.md rules R140 and R145), and how a running command comes to its
completion (spec/70_reset_and_hazards.md rule R200). -/

namespace Sys2Proof.Proofs

open Sys2Proof Sys2Proof.Machine Sys2Proof.Laws

/-! ### One step -/

/-- Settles O44: `step` on a due completion. -/
theorem stepRunsTheLatchedCommand : Obligations.StepRunsTheLatchedCommand := fun _ _ hs hc hd =>
  step_complete hs hc hd

/-- Settles O45: `step` on an input, and on none. -/
theorem stepTakesTheNextInput : Obligations.StepTakesTheNextInput := fun _ hs =>
  ⟨fun _ _ hi hd => step_input hs hi hd, step_idle hs⟩

theorem decodeTableWord_eq_some {nbits w : Nat} {i : Instr} (h : decodeTableWord nbits w = some i) :
    decode (tableWord nbits w) = i := by
  simp only [decodeTableWord, Option.ite_none_right_eq_some, Option.some.injEq] at h
  exact h.2

/-- Settles O46: the placed word is latched with its completion due. -/
theorem fetchedWordRunsNext : Obligations.FetchedWordRunsNext := by
  intro s nbits w hs
  have hstep : step (s.withFetchWord nbits w) = exec (decode (tableWord nbits w)) (s.withFetchWord nbits w) :=
    step_complete (c := ⟨tableWord nbits w, s.ilen, s.ibuf, s.nval⟩) hs rfl (.inl rfl)
  exact ⟨hstep, fun i hi => decodeTableWord_eq_some hi ▸ hstep⟩

/-! ### The run to a completion -/

theorem run_succ_of_step (M : Host.Core) {s t : M.State} (h : M.step s = .next t) (k : Nat) :
    M.run (k + 1) s = M.run k t := by
  rw [Host.Core.run, h]

theorem untouched_refl (s : State) : Untouched s s :=
  ⟨rfl, rfl, rfl, rfl, rfl, rfl, rfl, rfl, rfl, rfl, rfl, rfl, rfl, rfl, id⟩

/-- What stays over one run of steps and over the next stays over both; the latency is the last state's. -/
theorem untouched_trans {s t u : State} {l : List Input} {n : Nat}
    (h₁ : Untouched { s with inputs := l, latency := n } t)
    (h₂ : Untouched { t with latency := u.latency } u) : Untouched { s with latency := u.latency } u where
  cfg := h₂.cfg.trans h₁.cfg
  lcmd := h₂.lcmd.trans h₁.lcmd
  hardResets := h₂.hardResets.trans h₁.hardResets
  latency := rfl
  cmd := h₂.cmd.trans h₁.cmd
  ilen := h₂.ilen.trans h₁.ilen
  olen := h₂.olen.trans h₁.olen
  zrun := h₂.zrun.trans h₁.zrun
  nvalLo := h₂.nvalLo.trans h₁.nvalLo
  nvalHi := h₂.nvalHi.trans h₁.nvalHi
  errIdx := h₂.errIdx.trans h₁.errIdx
  ecode := h₂.ecode.trans h₁.ecode
  ibuf := h₂.ibuf.trans h₁.ibuf
  obuf := h₂.obuf.trans h₁.obuf
  done := h₁.done ∘ h₂.done

/-- R195: what is untouched has no result written. -/
theorem untouched_results {s t : State} {n : Nat} (h : Untouched { s with latency := n } t) : ResultsUnchanged s t :=
  ⟨h.olen, h.zrun, h.nvalLo, h.nvalHi, obufEntry_congr h.obuf h.hardResets⟩

/-- R145: a running command that is not due, with no reset to come, waits for one input; it uses up one host step of
its latency and touches nothing of the command, and still no reset is to come. -/
theorem step_waits {s : State} {c : Latched} (hs : s.Legal) (hc : s.lcmd = some c)
    (hin : ∀ i ∈ s.inputs, i.isReset = false) (hn : ¬ s.Completes) : ∃ t rest, step s = .next t ∧
      Untouched { s with inputs := rest, latency := s.latency - 1 } t ∧ ∀ i ∈ t.inputs, i.isReset = false := by
  obtain ⟨hlat, hne⟩ := not_or.mp fun hd => hn ((completes_iff s).mpr ⟨⟨c, hc⟩, hd⟩)
  obtain ⟨i, rest, hi⟩ := List.exists_cons_of_ne_nil hne
  refine ⟨_, rest, step_input hs hi (.inr hlat), ?_⟩
  rw [hi] at hin
  rcases running_input (i := i) (s := { s with inputs := rest, latency := s.latency - 1 })
    ((busy_true_iff _).mpr ⟨c, hc⟩) with ⟨hr, -⟩ | ⟨-, hu, hrest | hagain⟩
  · cases hr.symm.trans (hin i List.mem_cons_self)
  · exact ⟨hu, hrest ▸ fun j hj => hin j (List.mem_cons_of_mem _ hj)⟩
  · exact ⟨hu, hagain ▸ hin⟩

/-- R145, R200: by induction on the latency, a running command that no reset abandons comes to its completion. -/
theorem run_to_completion {s : State} {c : Latched} (hs : s.Legal) (hc : s.lcmd = some c)
    (hin : ∀ i ∈ s.inputs, i.isReset = false) : ∃ k u, k ≤ s.latency ∧ core.run k s = .next u ∧ u.Completes ∧
      Untouched { s with latency := u.latency } u := by
  induction hlat : s.latency generalizing s with
  | zero => exact ⟨0, s, le_rfl, rfl, (completes_iff s).mpr ⟨⟨c, hc⟩, .inl hlat⟩, untouched_refl s⟩
  | succ n ih =>
    by_cases hcomp : s.Completes
    · exact ⟨0, s, Nat.zero_le _, rfl, hcomp, untouched_refl s⟩
    · obtain ⟨t, rest, hstep, ht, hin'⟩ := step_waits hs hc hin hcomp
      have hlat' : t.latency = n := ht.latency.trans (by simp [hlat])
      obtain ⟨k, u, hk, hrun, hu, hkeep⟩ := ih ((congrArg Config.legal ht.cfg).trans hs) (ht.lcmd.trans hc) hin' hlat'
      exact ⟨k + 1, u, Nat.succ_le_succ hk, (run_succ_of_step core hstep k).trans hrun, hu, untouched_trans ht hkeep⟩

/-- Settles O58: the run to the completion keeps the latch, and the operands are read from its snapshot. -/
theorem runningCommandCompletes : Obligations.RunningCommandCompletes := by
  intro s c hs hc hin
  obtain ⟨k, u, hk, hrun, hu, hkeep⟩ := run_to_completion hs hc hin
  have hlatch : u.lcmd = some c := hkeep.lcmd.trans hc
  obtain ⟨-, hdue⟩ := (completes_iff u).mp hu
  obtain ⟨hlen, hentry, hint⟩ := operands_of_snapshot hc hlatch hkeep.hardResets
  exact ⟨k, u, hk, hrun, hlatch, hu, step_complete (hkeep.cfg ▸ hs) hlatch hdue, hlen, hentry, hint,
    untouched_results hkeep⟩

end Sys2Proof.Proofs
end

section
/-! SUPPORT. Errors (spec/60_exceptions.md section 1): which error a completion reports (R162 to R166, R169), what it
leaves of the state before the command (R160), and that no step traps. -/

namespace Sys2Proof.Proofs

open Sys2Proof Sys2Proof.Machine Sys2Proof.Laws

/-! ### Which error a completion reports -/

/-- Settles O16: the completion of ILLEGAL is the taking of one error, in every state. -/
theorem illegalMeetsItsRule : Obligations.IllegalMeetsItsRule := fun w s =>
  ⟨_, exec_illegal w s, raiseError_failedWith .illegalCmd 0 s 0 rfl⟩

/-- The radix whose digits a command reads from IBUF, for the two that read any (R163). -/
def inputRadix : Instr → Option Nat
  | .conv sr _ _ => some sr.base
  | .deci => some 58
  | .enci => none
  | .illegal _ => none

section
variable {i : Instr} {R : Nat} {s t : State} (hi : inputRadix i = some R)
include hi

theorem exec_eq_of_long (hlong : s.cfg.ibufDepth < operandLen s) :
    exec i s = .next (raiseError { code := .lenRange, idx := 0 } s) := by
  cases i with
  | conv sr tr z => exact exec_conv_long hlong
  | deci => exact exec_deci_long hlong
  | enci | illegal => cases hi

theorem exec_eq_of_bad {k : Nat} (hlen : operandLen s ≤ s.cfg.ibufDepth)
    (hk : firstOutOfRange R (operandDigits s) = some k) :
    exec i s = .next (raiseError { code := .digitRange, idx := k } s) := by
  cases i with
  | conv sr tr z => cases hi; exact exec_conv_bad hlen hk
  | deci => cases hi; exact exec_deci_bad hlen hk
  | enci | illegal => cases hi

/-- R164: LEN_RANGE comes before every digit check. -/
theorem exec_ecode_of_long (h : exec i s = .next t) (hlong : s.cfg.ibufDepth < operandLen s) :
    t.ecode = .lenRange := by
  obtain rfl := Host.Outcome.next.inj ((exec_eq_of_long hi hlong).symm.trans h)
  rfl

/-- R163: DIGIT_RANGE comes before every output check, at the smallest offending index. -/
theorem exec_ecode_of_bad (h : exec i s = .next t) (hlen : operandLen s ≤ s.cfg.ibufDepth)
    (hbad : ∃ x ∈ operandDigits s, R ≤ x) :
    t.ecode = .digitRange ∧ firstOutOfRange R (operandDigits s) = some t.errIdx.toNat := by
  have hcode : t.ecode = .digitRange := by
    obtain ⟨k, hk⟩ : ∃ k, firstOutOfRange R (operandDigits s) = some k := by
      rw [← Option.ne_none_iff_exists', Ne, firstOutOfRange_none]
      obtain ⟨x, hx, hle⟩ := hbad
      exact fun hall => Nat.not_lt.mpr hle (hall x hx)
    obtain rfl := Host.Outcome.next.inj ((exec_eq_of_bad hi hlen hk).symm.trans h)
    rfl
  obtain ⟨R', hR', -, hk⟩ := exec_digitRange h hcode
  have hsame : R' = R := by
    rcases hR' with ⟨sr, tr, z, rfl, rfl⟩ | ⟨rfl, rfl⟩ <;> exact Option.some.inj hi
  exact ⟨hcode, hsame ▸ hk⟩

end

/-- R165: CONV reports OUT_OVERFLOW exactly when the input passes both checks and the output is too long. -/
theorem exec_conv_outOverflow_iff {sr tr : Radix} {z : Bool} {s t : State} (h : exec (.conv sr tr z) s = .next t) :
    t.ecode = .outOverflow ↔ operandLen s ≤ s.cfg.ibufDepth ∧ (∀ x ∈ operandDigits s, x < sr.base) ∧
      s.cfg.obufDepth < (convOutput sr.base tr.base z (operandDigits s)).length := by
  rcases inputDigits_cases sr.base s with ⟨hlong, -⟩ | ⟨hlen, k, hk, -⟩ | ⟨hlen, hd, -⟩
  · obtain rfl := Host.Outcome.next.inj ((exec_conv_long hlong).symm.trans h)
    simp [Nat.not_le.mpr hlong]
  · obtain rfl := Host.Outcome.next.inj ((exec_conv_bad hlen (firstOutOfRange_some.mpr hk)).symm.trans h)
    obtain ⟨hlt, hle, -⟩ := hk
    have hbad : ¬ ∀ x ∈ operandDigits s, x < sr.base := fun hd =>
      Nat.not_lt.mpr hle (hd _ (List.getElem_mem hlt))
    simp [hbad]
  · by_cases hout : s.cfg.obufDepth < (convOutput sr.base tr.base z (operandDigits s)).length
    · obtain rfl := Host.Outcome.next.inj ((exec_conv_overflow hlen hd hout).symm.trans h)
      exact iff_of_true rfl ⟨hlen, hd, hout⟩
    · obtain rfl := Host.Outcome.next.inj ((exec_conv_ok hlen hd (Nat.not_lt.mp hout)).symm.trans h)
      exact iff_of_false (by simp) fun ⟨_, _, hlong⟩ => hout hlong

/-- R165: of an input that passes the checks only the length of the output is left to decide. -/
theorem exec_conv_outOverflow_iff_of_passes {sr tr : Radix} {z : Bool} {s t : State}
    (h : exec (.conv sr tr z) s = .next t) (hlen : operandLen s ≤ s.cfg.ibufDepth)
    (hd : ∀ x ∈ operandDigits s, x < sr.base) : t.ecode = .outOverflow ↔
      s.cfg.obufDepth < (convOutput sr.base tr.base z (operandDigits s)).length :=
  (exec_conv_outOverflow_iff h).trans ((and_iff_right hlen).trans (and_iff_right hd))

/-- R166: DECI, of an input that passes both checks, reports INT_OVERFLOW exactly from 2^64 on. -/
theorem exec_deci_intOverflow_iff {s t : State} (h : exec .deci s = .next t)
    (hlen : operandLen s ≤ s.cfg.ibufDepth) (hd : ∀ x ∈ operandDigits s, x < 58) :
    t.ecode = .intOverflow ↔ 2 ^ 64 ≤ value 58 (operandDigits s) := by
  by_cases hval : 2 ^ 64 ≤ value 58 (operandDigits s)
  · obtain rfl := Host.Outcome.next.inj ((exec_deci_overflow hlen hd hval).symm.trans h)
    exact iff_of_true rfl hval
  · obtain rfl := Host.Outcome.next.inj ((exec_deci_ok hlen hd (Nat.not_le.mp hval)).symm.trans h)
    exact iff_of_false (by simp) hval

/-- R130: at legal depths ENCI has no error. -/
theorem exec_enci_noError {s t : State} (hs : s.Legal) (h : exec .enci s = .next t) : t.ecode = .noError := by
  obtain rfl := Host.Outcome.next.inj ((exec_enci_ok hs).symm.trans h)
  rfl

/-- R130, R165: ENCI's output fits OBUF at every legal depth. -/
theorem enci_fits {s : State} (hs : s.Legal) : (digits 58 (operandInt s)).length ≤ s.cfg.obufDepth := by
  have hshort := enci_length s
  obtain ⟨-, -, -, -, hdepth, -⟩ := (legal_iff s.cfg).mp hs
  omega

/-- Settles O18: the input checks come first, and the output is checked of an input that passes them. -/
theorem errorPriority : Obligations.ErrorPriority := by
  intro i s t hs h d source
  refine ⟨?_, fun R hR hlong => exec_ecode_of_long hR h hlong, fun R hR hlen hbad => ?_, fun hpass => ⟨?_, ?_, ?_⟩⟩
  · rintro ⟨w, rfl⟩
    obtain rfl := Host.Outcome.next.inj ((exec_illegal w s).symm.trans h)
    rfl
  · obtain ⟨hcode, hidx⟩ := exec_ecode_of_bad hR h hlen hbad
    exact ⟨hcode, firstOutOfRange_some.mp hidx⟩
  · rintro sr tr z rfl
    obtain hnone | ⟨hlen, hd⟩ := hpass
    · exact absurd hnone (Option.some_ne_none _)
    · exact exec_conv_outOverflow_iff_of_passes h hlen (hd _ rfl)
  · rintro rfl
    simp [exec_enci_noError hs h, enci_fits hs]
  · rintro rfl
    obtain hnone | ⟨hlen, hd⟩ := hpass
    · exact absurd hnone (Option.some_ne_none _)
    · exact exec_deci_intOverflow_iff h hlen (hd _ rfl)

/-- R160: a completion that reports an error is the taking of that error. -/
theorem exec_raises {i : Instr} {s t : State} (h : exec i s = .next t) (herr : t.ecode ≠ .noError) :
    ∃ e, t = raiseError e s := by
  rcases exec_cases h with ⟨e, -, rfl⟩ | ⟨u, -, rfl, -⟩
  · exact ⟨e, rfl⟩
  · exact absurd rfl herr

theorem raiseError_resultsUnchanged (e : CmdError) (s : State) : ResultsUnchanged s (raiseError e s) :=
  (raiseError_failedWith e.code e.idx s _ rfl).results

/-- Settles O19: the condition is that of R104's last check; 256 digits become at most 768, and ENCI's fit. -/
theorem outOverflowExactlyWhenTooLong : Obligations.OutOverflowExactlyWhenTooLong := by
  intro s t hs
  refine ⟨fun sr tr z h hlen hd => ⟨exec_conv_outOverflow_iff_of_passes h hlen hd, fun hcode => ?_⟩,
    fun sr tr z h _ hi ho hcode => ?_, fun h => ?_⟩
  · obtain ⟨e, rfl⟩ := exec_raises h (by simp [hcode])
    exact raiseError_resultsUnchanged e s
  · obtain ⟨hlen, hd, hlong⟩ := (exec_conv_outOverflow_iff h).mp hcode
    have hout := convOutput_length_le sr tr z hd
    rw [operandDigits_length] at hout
    omega
  · simp [exec_enci_noError hs h]

/-! ### The state after an error -/

/-- R51: the accept of an idle block's command snapshots the digits the block holds. -/
theorem operandDigits_accept {s : State} (w : Word) (hidle : s.busy = false) :
    operandDigits (respond .written (accept w s)) = operandDigits s := by
  obtain ⟨hlen, hentry, -⟩ := operands_idle s ((busy_false_iff s).mp hidle)
  refine operandDigits_congr ?_ fun j _ => ?_
  · rw [hlen]; simp [operandLen]
  · rw [hentry]; simp [operandEntry, State.ibufEntry]

theorem resultsUnchanged_trans {s t u : State} (h₁ : ResultsUnchanged s t) (h₂ : ResultsUnchanged t u) :
    ResultsUnchanged s u where
  olen := h₂.olen.trans h₁.olen
  zrun := h₂.zrun.trans h₁.zrun
  nvalLo := h₂.nvalLo.trans h₁.nvalLo
  nvalHi := h₂.nvalHi.trans h₁.nvalHi
  obuf := fun i => (h₂.obuf i).trans (h₁.obuf i)

/-- Settles O17: neither the accept nor the taking of an error writes a result, an input or a setting. -/
theorem errorsArePrecise : Obligations.ErrorsArePrecise := by
  intro w s t hidle h herr
  rw [hostAccess_cmd_idle w hidle] at h
  obtain ⟨e, rfl⟩ := exec_raises h herr
  refine ⟨rfl, rfl, by simp [busy_eq], fun hcode => if_neg hcode, fun hcode => ?_, by simp, by simp, by simp, by simp,
    resultsUnchanged_trans (accept_resultsUnchanged w s) (raiseError_resultsUnchanged e _),
    ibufEntry_congr (by simp) (by simp)⟩
  obtain ⟨R, hR, -, hidx⟩ := exec_digitRange h hcode
  rw [operandDigits_accept w hidle] at hidx
  exact ⟨R, hR, firstOutOfRange_some.mp hidx⟩

/-! ### No trap -/

/-- A step answers a next state, whether a command completes, an input is taken, or the block idles. -/
theorem step_next {s : State} (hs : s.Legal) : ∃ t, step s = .next t := by
  cases hc : s.lcmd with
  | none =>
    cases hi : s.inputs with
    | nil => exact ⟨s, step_idle hs hc hi⟩
    | cons i rest => exact ⟨_, step_input hs hi (.inl hc)⟩
  | some c =>
    by_cases hdue : s.latency = 0 ∨ s.inputs = []
    · rw [step_complete hs hc hdue]
      exact exec_next _ s
    · obtain ⟨hlat, hne⟩ := not_or.mp hdue
      obtain ⟨i, rest, hi⟩ := List.exists_cons_of_ne_nil hne
      exact ⟨_, step_input hs hi (.inr hlat)⟩

theorem step_cfg {s t : State} (h : step s = .next t) : t.cfg = s.cfg := by
  obtain ⟨-, ⟨c, -, -, he⟩ | ⟨-, i, rest, -, -, rfl⟩ | ⟨-, -, -, rfl⟩⟩ := step_cases h
  · exact (exec_frame he).1.cfg
  · exact applyInput_cfg i _
  · rfl

/-- Settles O49: each of the three kinds of step answers a next state, and none writes a parameter. -/
theorem everyStepGoesOn : Obligations.EveryStepGoesOn := fun _ hs =>
  (step_next hs).imp fun _ h => ⟨h, step_cfg h⟩

end Sys2Proof.Proofs
end

section
/-! SUPPORT. The interrupt (spec/60_exceptions.md section 2): the level (R172), and the races of a completion with a
host access (R173). -/

namespace Sys2Proof.Proofs

open Sys2Proof Sys2Proof.Machine Sys2Proof.Laws

/-! ### The level -/

/-- R172: the inputs that clear `irq`. -/
def ClearsIrq (s : State) (i : Input) : Prop :=
  i.isReset = true ∨ (∃ v, i = Input.writes 0x00C v ∧ v.getLsbD 1 = true) ∨
    (∃ v, i = Input.writes 0x008 v ∧ v.getLsbD 0 = false) ∨ (s.busy = false ∧ ∃ w, i = Input.writes 0x010 w)

theorem irq_eq_true_iff (s : State) : s.irq = true ↔ s.ie = true ∧ s.done = true := by simp [State.irq]

theorem irq_eq_false_of_ie {s : State} (h : s.ie = false) : s.irq = false := by simp [State.irq, h]

theorem irq_eq_false_of_done {s : State} (h : s.done = false) : s.irq = false := by simp [State.irq, h]

/-- R52, R147: the inputs that abandon a command are the reset input and the CTRL write of a soft reset. -/
theorem eq_of_isReset {i : Input} (h : i.isReset = true) :
    i = .hardReset ∨ ∃ v, i = Input.writes 0x008 v ∧ v.getLsbD 1 = true := by
  cases i with
  | hardReset => exact .inl rfl
  | poll => cases h
  | access a =>
    obtain ⟨off, width, kind⟩ := a
    cases kind with
    | read => simp [Input.isReset] at h
    | write v =>
      simp only [Input.isReset, Access.accepted, Bool.and_eq_true, beq_iff_eq] at h
      obtain ⟨⟨⟨rfl, -⟩, rfl⟩, hv⟩ := h
      exact .inr ⟨v, rfl, hv⟩

/-- R172: an input that clears `irq` leaves it low, because it leaves IE or DONE low. -/
theorem applyInput_irq_of_clears {s : State} {i : Input} (h : ClearsIrq s i) : (applyInput i s).irq = false := by
  rcases h with hr | ⟨v, rfl, hv⟩ | ⟨v, rfl, hv⟩ | ⟨hidle, w, rfl⟩
  · rcases eq_of_isReset hr with rfl | ⟨v, rfl, hv⟩
    · exact irq_eq_false_of_ie rfl
    · exact irq_eq_false_of_done ((congrArg State.done (hostAccess_ctrl v s)).trans (by simp [hv]))
  · exact irq_eq_false_of_done ((congrArg State.done (hostAccess_status v s)).trans (by simp [hv]))
  · exact irq_eq_false_of_ie ((congrArg State.ie (hostAccess_ctrl v s)).trans (by rw [respond_ie, writeCtrl_ie, hv]))
  · exact irq_eq_false_of_done ((congrArg State.done (hostAccess_cmd_idle w hidle)).trans (by simp))

/-- R172: a write raises `irq` as a CTRL write that sets IE, and else changes it only by clearing it. -/
theorem writeEffect_irq {off : Offset} {v : Word} {s u : State} (hw : WriteEffect off v s u) :
    u.irq = s.irq ∨ (u.irq = true ∧ off = 0x008 ∧ v.getLsbD 0 = true) ∨ ClearsIrq s (Input.writes off v) := by
  cases hw with
  | ctrl ho =>
    subst ho
    cases hv : v.getLsbD 0 with
    | false => exact .inr (.inr (.inr (.inr (.inl ⟨v, rfl, hv⟩))))
    | true =>
      rcases writeCtrl_cases v s with ⟨hr, -⟩ | hstore
      · exact .inr (.inr (.inl hr))
      · rw [hstore]
        rcases Bool.eq_false_or_eq_true s.done with hd | hd
        · exact .inr (.inl ⟨(irq_eq_true_iff _).mpr ⟨hv, hd⟩, rfl, rfl⟩)
        · exact .inl (by simp [State.irq, hd])
  | status ho =>
    subst ho
    cases hv : v.getLsbD 1 with
    | true => exact .inr (.inr (.inr (.inl ⟨v, rfl, hv⟩)))
    | false => exact .inl (by rw [State.irq, acknowledge_ie, acknowledge_done, hv, Bool.not_false, Bool.and_true]; rfl)
  | accept ho hb => exact .inr (.inr (.inr (.inr (.inr ⟨hb, v, ho ▸ rfl⟩))))
  | _ => exact .inl rfl

/-- R172: after a completion DONE is 1, so `irq` is IE. -/
theorem completion_irq {s t : State} (h : step s = .next t) (hc : s.Completes) : t.irq = s.ie := by
  cases step_event h with
  | failed | output | integer => exact Bool.and_true s.ie
  | silent hn => exact absurd hc hn
  | hardReset ht | write _ _ ht => exact absurd hc (not_completes_of_takes ht)

theorem step_irq_of_clears {s t : State} {i : Input} (h : step s = .next t) (ht : s.Takes i) (hi : ClearsIrq s i) :
    t.irq = false := by
  obtain ⟨rest, n, rfl⟩ := step_of_takes h ht
  exact applyInput_irq_of_clears (s := { s with inputs := rest, latency := n }) hi

/-- R172: what else a step can do to `irq`. -/
theorem step_irq {s t : State} (h : step s = .next t) (hn : ¬ s.Completes) : t.irq = s.irq ∨
    (t.irq = true ∧ ∃ v, s.Takes (Input.writes 0x008 v) ∧ v.getLsbD 0 = true) ∨
    ∃ i, s.Takes i ∧ ClearsIrq s i := by
  cases step_event h with
  | failed hc | output hc | integer hc => exact absurd hc hn
  | silent => exact .inl rfl
  | hardReset ht => exact .inr (.inr ⟨_, ht, .inl rfl⟩)
  | write off v ht _ _ _ u hw =>
    rcases writeEffect_irq hw with he | ⟨he, rfl, hv⟩ | hclears
    · exact .inl he
    · exact .inr (.inl ⟨he, v, ht, hv⟩)
    · exact .inr (.inr ⟨_, ht, hclears⟩)

/-- Settles O57: a completion, a CTRL write that sets IE, and the clearing inputs are all that reaches `irq`. -/
theorem interruptLevel : Obligations.InterruptLevel := by
  intro s t h clears
  refine ⟨irq_eq_true_iff s, fun line => by simp [State.irqOn], completion_irq h, fun h0 h1 => ?_, fun h1 h0 => ?_,
    fun i => step_irq_of_clears h⟩
  · by_cases hc : s.Completes
    · exact .inl hc
    · rcases step_irq h hc with he | ⟨-, hset⟩ | ⟨i, ht, hclears⟩
      · simp [he, h0] at h1
      · exact .inr hset
      · simp [step_irq_of_clears h ht hclears] at h1
  · by_cases hc : s.Completes
    · obtain ⟨hie, -⟩ := (irq_eq_true_iff s).mp h1
      simp [completion_irq h hc, hie] at h0
    · rcases step_irq h hc with he | ⟨he, -⟩ | hcause
      · simp [he, h1] at h0
      · simp [he] at h0
      · exact hcause

/-! ### The races -/

/-- R34: STATUS reads as 0 when the block is idle, no flag is set and ECODE is NONE. -/
theorem statusWord_eq_zero {s : State} (hbusy : s.busy = false) (hdone : s.done = false) (herr : s.err = false)
    (hovr : s.ovr = false) (hecode : s.ecode = .noError) : s.statusWord = 0 := by
  rw [State.statusWord, hbusy, hdone, herr, hovr, hecode]
  rfl

/-- R191: a CTRL write with bit 1 set leaves the engine IDLE, STATUS and OLEN 0, and OBUF as it was. -/
theorem hostAccess_softReset {v : Word} {s u : State} (hv : v.getLsbD 1 = true) (hu : u = hostAccess (wr 0x008 v) s) :
    u.lcmd = none ∧ u.statusWord = 0 ∧ u.olen = 0 ∧ ∀ i, u.obufEntry i = s.obufEntry i := by
  rw [hostAccess_ctrl, writeCtrl, if_pos hv] at hu
  subst hu
  exact ⟨rfl, statusWord_eq_zero rfl rfl rfl rfl rfl, rfl, obufEntry_congr rfl rfl⟩

section
variable {s : State} {c : Latched} (hs : s.Legal) (hc : s.lcmd = some c) (hlat : s.latency = 0)
include hs hc hlat

/-- R145: with its latency used up, the running command ends in the next step. -/
theorem step_ends : ∃ t, exec (decode c.word) s = .next t ∧ step s = .next t ∧ CommandFrame s t ∧ t.lcmd = none ∧
    t.done = true := by
  obtain ⟨t, ht⟩ := exec_next (decode c.word) s
  obtain ⟨hframe, hidle, hdone, -⟩ := exec_frame ht
  exact ⟨t, ht, (step_complete hs hc (.inl hlat)).trans ht, hframe, hidle, hdone⟩

/-- R173: a completion before an input; the input meets the idle block that the completion leaves. -/
theorem step_ends_then_input {i : Input} {rest : List Input} (hin : s.inputs = i :: rest) :
    ∃ t, exec (decode c.word) s = .next t ∧ step s = .next t ∧ CommandFrame s t ∧ t.lcmd = none ∧ t.done = true ∧
      step t = .next (applyInput i { t with inputs := rest, latency := t.latency - 1 }) := by
  obtain ⟨t, hexec, ht, hframe, hidle, hdone⟩ := step_ends hs hc hlat
  exact ⟨t, hexec, ht, hframe, hidle, hdone,
    step_input (hframe.cfg ▸ hs) (hframe.inputs.trans hin) (.inl hidle)⟩

end

/-- Settles O59: the input meets an idle block after the completion, and the running command before it. -/
theorem racesInBothOrders : Obligations.RacesInBothOrders := by
  intro s c v rest hs hc
  refine ⟨fun hin => ⟨fun hlat => ?_, fun hlat => ?_⟩, fun hin hv => ⟨fun hlat => ?_, fun hlat => ?_⟩,
    fun hin hv => ⟨fun hlat => ?_, fun hlat => ?_⟩⟩
  · obtain ⟨t, -, ht, hframe, hidle, hdone, hu⟩ := step_ends_then_input hs hc hlat hin
    refine ⟨t, _, ht, hdone, hu, ?_⟩
    have haccept := hostAccess_cmd_idle (s := { t with inputs := rest, latency := t.latency - 1 }) v
      ((busy_false_iff _).mpr hidle)
    rw [Input.writes, applyInput, haccept]
    simp [busy_eq, hframe.ovr]
  · refine ⟨_, step_input hs hin (.inr hlat), ?_⟩
    have hdrop := hostAccess_cmd_busy (s := { s with inputs := rest, latency := s.latency - 1 }) v
      ((busy_true_iff _).mpr ⟨c, hc⟩)
    rw [Input.writes, applyInput, hdrop]
    exact ⟨hc, rfl, rfl⟩
  · obtain ⟨t, -, ht, -, -, hdone, hu⟩ := step_ends_then_input hs hc hlat hin
    refine ⟨t, _, ht, hdone, hu, ?_⟩
    rw [Input.writes, applyInput, hostAccess_status]
    simp [hv]
  · have ht := step_input hs hin (.inr (by omega))
    rw [Input.writes, applyInput, hostAccess_status] at ht
    obtain ⟨u, -, hu, -, -, hdone⟩ := step_ends
      (s := respond .written (acknowledge v { s with inputs := rest, latency := s.latency - 1 })) hs hc (by simp [hlat])
    exact ⟨_, u, ht, hc, hu, hdone⟩
  · obtain ⟨t, hexec, ht, -, -, -, hu⟩ := step_ends_then_input hs hc hlat hin
    obtain ⟨-, hstatus, holen, hobuf⟩ :=
      hostAccess_softReset (s := { t with inputs := rest, latency := t.latency - 1 }) hv rfl
    exact ⟨t, _, hexec, ht, hu, hobuf, hstatus, holen⟩
  · obtain ⟨hidle, hstatus, holen, hobuf⟩ :=
      hostAccess_softReset (s := { s with inputs := rest, latency := s.latency - 1 }) hv rfl
    exact ⟨_, step_input hs hin (.inr hlat), hidle, hstatus, holen, hobuf⟩

end Sys2Proof.Proofs
end

section
/-! SUPPORT. Resets and hazards (spec/70_reset_and_hazards.md): what both resets leave (R190, R191, R203), that a
running command commits nothing (R195), and that a command is a function of its word and its operands (R204). -/

namespace Sys2Proof.Proofs

open Sys2Proof Sys2Proof.Machine Sys2Proof.Laws

/-! ### Resets -/

/-- R27, R191: a CTRL write with bit 1 set is the soft reset, and IE takes bit 0 after it. -/
theorem hostAccess_ctrl_reset {v : Word} (hv : v.getLsbD 1 = true) (s : State) :
    hostAccess (wr 0x008 v) s = { softReset s with ie := v.getLsbD 0, resp := .written } := by
  rw [hostAccess_ctrl, writeCtrl, if_pos hv]; rfl

/-- Settles O38: with bit 1 the write is a soft reset, which keeps the parameters and the buffers; without it, a store
to IE. -/
theorem ctrlWriteAndSoftReset : Obligations.CtrlWriteAndSoftReset := by
  intro s v
  refine ⟨fun hv => ?_, fun hv => ?_⟩
  · rw [hostAccess_ctrl_reset hv]
    exact ⟨rfl, rfl, statusWord_eq_zero rfl rfl rfl rfl rfl, rfl, rfl, rfl, rfl, rfl, rfl, rfl, rfl, rfl,
      ibufEntry_congr rfl rfl, obufEntry_congr rfl rfl⟩
  · rw [hostAccess_ctrl, writeCtrl_plain hv]; rfl

/-- Settles O41: ID and PARAM read as their constants in every state; every other register is 0 in both reset states. -/
theorem hardResetValues : Obligations.HardResetValues := by
  intro s hs
  obtain ⟨hid, hparam, -⟩ := registerReads s
  refine ⟨congrArg State.resp hid, congrArg State.resp hparam, ?_⟩
  rcases hs with rfl | ⟨u, rfl⟩ <;>
    exact ⟨rfl, statusWord_eq_zero rfl rfl rfl rfl rfl, rfl, rfl, rfl, rfl, rfl, rfl, rfl, rfl, rfl, rfl⟩

/-- Settles O42: the hard reset lists no buffer entry, so each reads as the free value of the new reset number. -/
theorem hardResetRedrawsBuffers : Obligations.HardResetRedrawsBuffers := fun _ =>
  ⟨rfl, fun _ => rfl, fun _ => rfl⟩

/-- R203: a state with nothing latched is clean as soon as ERR and OVR are 0. -/
theorem clean_of_idle {s : State} (hidle : s.lcmd = none) (herr : s.err = false) (hovr : s.ovr = false) : s.Clean :=
  ⟨(phase_eq_idle_iff s).mpr hidle, (busy_false_iff s).mpr hidle, herr, hovr⟩

/-- Settles O43: the reset state and both resets latch nothing and clear ERR and OVR. -/
theorem resetsAreClean : Obligations.ResetsAreClean :=
  ⟨clean_of_idle rfl rfl rfl, fun s => ⟨clean_of_idle rfl rfl rfl, fun _ hv =>
    hostAccess_ctrl_reset hv s ▸ clean_of_idle rfl rfl rfl⟩⟩

/-! ### A running command -/

/-- Settles O52: a step that leaves the command running leaves everything it reads and commits untouched. -/
theorem nothingCommittedWhileRunning : Obligations.NothingCommittedWhileRunning := by
  intro s t h hs ht
  obtain ⟨rest, hu⟩ := step_running h hs ht
  exact ⟨⟨hu.olen, hu.zrun, hu.nvalLo, hu.nvalHi, obufEntry_congr hu.obuf hu.hardResets⟩, hu.errIdx, hu.ecode, hu.cmd,
    hu.ilen, ibufEntry_congr hu.ibuf hu.hardResets, hu.done⟩

/-! ### Commands as functions of their operands -/

/-- R204: two ends of command `i` report the same, and with no error commit the same: ZRUN, and NVAL for DECI, or OLEN
and OBUF[0..OLEN) for the others. -/
def CommitsAlike (i : Instr) (t v : State) : Prop :=
  t.ecode = v.ecode ∧ t.errIdx = v.errIdx ∧
    (t.ecode = .noError →
      t.zrun = v.zrun ∧
      (i = .deci → t.nval = v.nval) ∧
      (i ≠ .deci → t.olen = v.olen ∧ t.outputDigits = v.outputDigits))

theorem raiseError_commitsAlike {e : CmdError} (he : e.code ≠ .noError) (i : Instr) (s u : State) :
    CommitsAlike i (raiseError e s) (raiseError e u) := ⟨rfl, rfl, fun hok => absurd hok he⟩

/-- R104: a committed entry is its digit of the output, whatever the state held. -/
theorem completeOk_storeOutput_obufEntry {out : List Nat} {i : Nat} (hi : i < out.length) (k : Nat) (s : State) :
    (completeOk (storeOutput out k s)).obufEntry i = BitVec.ofNat 8 out[i] :=
  (obufEntry_congr (s := storeDigits out s) rfl rfl i).trans ((storeDigits_obufEntry out s i).trans (dif_pos hi))

theorem completeOk_storeOutput_outputDigits (out : List Nat) (k : Nat) (s u : State) :
    (completeOk (storeOutput out k s)).outputDigits = (completeOk (storeOutput out k u)).outputDigits := by
  refine List.map_congr_left fun i hi => ?_
  have hlt : i < out.length := by
    rw [List.mem_range, completeOk_olen, storeOutput_olen, BitVec.toNat_ofNat] at hi
    exact hi.trans_le (Nat.mod_le _ _)
  rw [completeOk_storeOutput_obufEntry hlt, completeOk_storeOutput_obufEntry hlt]

/-- R104, R130: the output check and the result writes look at the output and OBUF_DEPTH only. -/
theorem commitDigits_commitsAlike {i : Instr} (hi : i ≠ .deci) {s u : State} (hcfg : u.cfg = s.cfg) (out : List Nat)
    (k : Nat) : CommitsAlike i (finish (commitDigits out k s) s) (finish (commitDigits out k u) u) := by
  rw [commitDigits, commitDigits, hcfg]
  split
  · exact raiseError_commitsAlike (by simp) i s u
  · exact ⟨rfl, rfl, fun _ => ⟨rfl, fun hdeci => absurd hdeci hi,
      fun _ => ⟨rfl, completeOk_storeOutput_outputDigits out k s u⟩⟩⟩

theorem inputDigits_congr {s u : State} (hcfg : u.cfg = s.cfg) (hlen : operandLen u = operandLen s)
    (hentry : ∀ j < operandLen s, operandEntry u j = operandEntry s j) (R : Nat) :
    inputDigits R u = inputDigits R s := by
  simp only [inputDigits, hcfg, hlen, operandDigits_congr hlen hentry]

theorem inputDigits_error_code {R : Nat} {s : State} {e : CmdError} (h : inputDigits R s = .error e) :
    e.code ≠ .noError := by
  rcases inputDigits_cases R s with ⟨-, hin⟩ | ⟨-, k, -, hin⟩ | ⟨-, -, hin⟩ <;> cases hin.symm.trans h <;> simp

section
variable {s u : State} (hin : ∀ R, inputDigits R u = inputDigits R s)
include hin

theorem convBody_commitsAlike (hcfg : u.cfg = s.cfg) (sr tr : Radix) (z : Bool) :
    CommitsAlike (.conv sr tr z) (finish (convBody sr tr z s) s) (finish (convBody sr tr z u) u) := by
  rw [convBody, convBody, hin]
  cases hd : inputDigits sr.base s with
  | error e => exact raiseError_commitsAlike (inputDigits_error_code hd) _ s u
  | ok d => exact commitDigits_commitsAlike (by simp) hcfg _ _

theorem deciBody_commitsAlike : CommitsAlike .deci (finish (deciBody s) s) (finish (deciBody u) u) := by
  rw [deciBody, deciBody, hin]
  cases hd : inputDigits 58 s with
  | error e => exact raiseError_commitsAlike (inputDigits_error_code hd) _ s u
  | ok d =>
    dsimp only
    split
    · exact raiseError_commitsAlike (by simp) _ s u
    · exact ⟨rfl, rfl, fun _ => ⟨rfl, fun _ => rfl, fun hne => absurd rfl hne⟩⟩

end

/-- Settles O26: each command's body reads the state through its input digits or its integer, and ILLEGAL's reads
nothing. -/
theorem commandsArePureFunctions : Obligations.CommandsArePureFunctions := by
  intro i s u t v hcfg hlen hentry hint ht hv
  have hin := inputDigits_congr hcfg hlen hentry
  show CommitsAlike i t v
  cases i with
  | conv sr tr z => cases ht; cases hv; exact convBody_commitsAlike hin hcfg sr tr z
  | enci =>
    cases ht; cases hv
    rw [enciBody, enciBody, hint]
    exact commitDigits_commitsAlike (by simp) hcfg _ 0
  | deci => cases ht; cases hv; exact deciBody_commitsAlike hin
  | illegal w => cases ht; cases hv; exact raiseError_commitsAlike (by simp) _ s u

end Sys2Proof.Proofs
end

section
/-! SUPPORT. The machine's invariant (spec/10_state.md sections 2, 3 and 6) over every completion, every input, and so
every step. A proof `{ hs with … }` names the fields of the invariant that the operation reaches; the others speak of
fields of the state it leaves alone. -/

namespace Sys2Proof.Proofs

open Sys2Proof Sys2Proof.Machine Sys2Proof.Laws

/-! ### Parts of the invariant -/

/-- With nothing latched there is no snapshot to disagree with the registers (R45, R51). -/
theorem snapshotLive_of_idle {s : State} (hidle : s.lcmd = none) : s.SnapshotLive :=
  fun _ hc => nomatch hidle.symm.trans hc

/-- ERRIDX = 0 is an index of IBUF, which holds at least 8 entries (R6). -/
theorem zero_lt_ibufDepth {c : Config} (hc : c.legal = true) : (0 : Half).toNat < c.ibufDepth := by
  obtain ⟨-, hdepth, -⟩ := (legal_iff c).mp hc
  exact Nat.lt_of_lt_of_le (by decide) hdepth

/-- A 16-bit field holds no more than the number stored in it. -/
theorem toNat_half_le {k d : Nat} (hk : k ≤ d) : (BitVec.ofNat 16 k).toNat ≤ d :=
  (BitVec.toNat_ofNat k 16).le.trans ((Nat.mod_le k _).trans hk)

/-- A list of bytes written within the depth leaves no entry beyond it. -/
theorem writeList_bound {m : Memory} {d i : Nat} {bs : List Byte} (hm : ∀ c ∈ m, c.1 < d) (hbs : i + bs.length ≤ d) :
    ∀ c ∈ Memory.writeList m i bs, c.1 < d := by
  intro c hc
  rcases mem_writeList hc with ⟨-, hlt⟩ | hold
  · exact hlt.trans_le hbs
  · exact hm c hold

section
variable {s : State} (hs : s.Inv)
include hs

/-- The model's record of the host and the bus is no part of the invariant. -/
theorem inv_hostFields (l : List Input) (n : Nat) (r : BusResponse) :
    State.Inv { s with inputs := l, latency := n, resp := r } := { hs with }

/-! ### Completions (R145) -/

/-- R40, R160: an index goes to ERRIDX with DIGIT_RANGE only. -/
theorem raiseError_inv {e : CmdError} (hidx : e.code = .digitRange → e.idx < s.cfg.ibufDepth) :
    (raiseError e s).Inv :=
  { hs with
    snapshot := snapshotLive_of_idle rfl
    busyNotDone := nofun
    errIdx := by
      rw [raiseError_errIdx, raiseError_cfg]
      split
      · exact (toNat_half_le le_rfl).trans_lt (hidx ‹_›)
      · exact zero_lt_ibufDepth hs.legal
    errIdxZero := fun hcode => if_neg hcode }

/-- R104, R130: the output and its zero run are committed within the depths of the buffers. -/
theorem completeOk_storeOutput_inv {out : List Nat} {k : Nat} (hout : out.length ≤ s.cfg.obufDepth)
    (hk : k ≤ s.cfg.ibufDepth) : (completeOk (storeOutput out k s)).Inv :=
  { hs with
    obufWf := writeList_wf 0 _ hs.obufWf
    obufBound := writeList_bound hs.obufBound (by simpa using hout)
    snapshot := snapshotLive_of_idle rfl
    busyNotDone := nofun
    olen := toNat_half_le hout
    zrun := toNat_half_le hk
    errIdx := zero_lt_ibufDepth hs.legal
    errIdxZero := fun _ => rfl }

/-- R131: the zero run of DECI is within the depth of IBUF. -/
theorem completeOk_storeInteger_inv (N : Nat) {k : Nat} (hk : k ≤ s.cfg.ibufDepth) :
    (completeOk (storeInteger N k s)).Inv :=
  { hs with
    snapshot := snapshotLive_of_idle rfl
    busyNotDone := nofun
    zrun := toNat_half_le hk
    errIdx := zero_lt_ibufDepth hs.legal
    errIdxZero := fun _ => rfl }

/-- Every completion keeps the invariant: an accepted input is no longer than IBUF, so neither is its zero run, and an
offending index is one of its indices. -/
theorem exec_inv {i : Instr} {t : State} (h : exec i s = .next t) : t.Inv := by
  have lz_bound (hlen : operandLen s ≤ s.cfg.ibufDepth) : lz (operandDigits s) ≤ s.cfg.ibufDepth :=
    (lz_le _).trans ((operandDigits_length s).le.trans hlen)
  rcases exec_cases h with ⟨e, ⟨-, hidx⟩, rfl⟩ |
    ⟨u, -, rfl, ⟨out, k, rfl, hout, ⟨_, _, _, -, hlen, -, -, rfl⟩ | ⟨-, -, rfl⟩⟩ | ⟨-, hlen, -, -, rfl⟩⟩
  · exact raiseError_inv hs fun hcode => (hidx hcode).1.trans_le (hidx hcode).2
  · exact completeOk_storeOutput_inv hs hout (lz_bound hlen)
  · exact completeOk_storeOutput_inv hs hout (Nat.zero_le _)
  · exact completeOk_storeInteger_inv hs _ (lz_bound hlen)

/-! ### Inputs (R140 to R149, R190, R191) -/

theorem softReset_inv : (softReset s).Inv :=
  { hs with
    snapshot := snapshotLive_of_idle rfl
    busyNotDone := nofun
    olen := Nat.zero_le _
    zrun := Nat.zero_le _
    errIdx := zero_lt_ibufDepth hs.legal
    errIdxZero := fun _ => rfl }

theorem hardReset_inv : (hardReset s).Inv :=
  { softReset_inv hs with
    ibufWf := .nil
    obufWf := .nil
    ibufBound := nofun
    snapshot := snapshotLive_of_idle rfl
    obufBound := nofun }

/-- R51, R142: the accept latches the live registers and clears DONE. -/
theorem accept_inv (w : Word) : (accept w s).Inv := by
  have hlatch : (latchCommand w s).Inv :=
    { hs with
      snapshot := fun _ hc => Option.some.inj hc ▸ ⟨rfl, rfl, rfl, rfl⟩
      busyNotDone := fun _ => rfl }
  unfold accept drawLatency
  split <;> exact { hlatch with }

/-- R148: a word of the IBUF window is four entries within the depth, which is a multiple of 4. -/
theorem storeIbufWord_inv {w : Nat} (v : Word) (hidle : s.busy = false) (hw : 4 * w < s.cfg.ibufDepth) :
    (storeIbufWord w v s).Inv := by
  obtain ⟨hmul, -⟩ := (legal_iff s.cfg).mp hs.legal
  have hfit : 4 * w + 4 ≤ s.cfg.ibufDepth := by omega
  exact { hs with
    ibufWf := writeList_wf _ _ hs.ibufWf
    ibufBound := writeList_bound hs.ibufBound hfit
    snapshot := snapshotLive_of_idle ((busy_false_iff s).mp hidle) }

/-- Every write keeps the invariant: those that reach an operand are taken only while nothing is latched (R144). -/
theorem writeEffect_inv {off : Offset} {v : Word} {u : State} (hw : WriteEffect off v s u) : u.Inv := by
  have idle (hb : s.busy = false) := (busy_false_iff s).mp hb
  cases hw with
  | ctrl ho =>
    rcases writeCtrl_cases v s with ⟨-, h⟩ | h <;> rw [h]
    · exact { softReset_inv hs with }
    · exact { hs with }
  | status ho => exact { hs with busyNotDone := fun hb => by rw [acknowledge_done, hs.busyNotDone hb, Bool.false_and] }
  | accept ho hb => exact accept_inv hs v
  | dropped hb ho => exact { hs with }
  | ilen ho hb => exact { hs with snapshot := snapshotLive_of_idle (idle hb) }
  | nvalLo ho hb => exact { hs with snapshot := snapshotLive_of_idle (idle hb) }
  | nvalHi ho hb => exact { hs with snapshot := snapshotLive_of_idle (idle hb) }
  | ibuf w ho hd hb => exact storeIbufWord_inv hs v hb (by omega)

theorem applyInput_inv (i : Input) : (applyInput i s).Inv := by
  rcases applyInput_cases i s with ⟨r, l, h, -⟩ | ⟨-, h⟩ | ⟨off, v, -, -, u, h, hw⟩ <;> rw [h]
  · exact inv_hostFields hs l _ r
  · exact hardReset_inv hs
  · exact inv_hostFields (writeEffect_inv hs hw) _ _ _

end

/-! ### Steps -/

/-- Settles O47: a completion and an input each keep the invariant, and idling changes nothing. -/
theorem stepKeepsInvariant : Obligations.StepKeepsInvariant := by
  intro s t hs h
  obtain ⟨-, ⟨c, -, -, he⟩ | ⟨-, i, rest, -, -, rfl⟩ | ⟨-, -, -, rfl⟩⟩ := step_cases h
  · exact exec_inv hs he
  · exact applyInput_inv (inv_hostFields hs rest (s.latency - 1) s.resp) i
  · exact hs

end Sys2Proof.Proofs
end
